-- ==== Sys2Proof/Word.lean ====
section
/-! DEFINITION. The value types of the block (00_scope.md R6, R9): every value is an unsigned bit vector. -/

namespace Sys2Proof

/-- `u8` (R9). -/
abbrev Byte := BitVec 8

/-- `u32` (R9): the word of the datapath. -/
abbrev Word := BitVec 32

/-- `u64` (R9): LEN, PLEN, OFF and operand A of a command. -/
abbrev DWord := BitVec 64

/-- The 80-bit host command word, format HC (30_encoding.md R100). -/
abbrev CommandWord := BitVec 80

/-- The 4-bit micro-operation code, format MO (30_encoding.md R104). -/
abbrev MicroCode := BitVec 4

end Sys2Proof
end

