-- ==== Sys2Proof/Syntax.lean ====
section
/-! DEFINITION. The instructions: one constructor per row of opcode_table.json (30_encoding.md R113). -/

namespace Sys2Proof

/-- Five host commands of format HC (R101) and nine micro-operations of format MO (R104). -/
inductive Instr where
  /-- `WRMSG addr, data` (45_host_commands.md R211). -/
  | wrmsg (addr : DWord) (data : Byte)
  /-- `WRLEN value` (R212). -/
  | wrlen (value : DWord)
  /-- `START` (R213). -/
  | start
  /-- `RDSTAT` (R214). -/
  | rdstat
  /-- `RDDIG idx` (R215): the operand field A is 64 bits wide, a legal `idx` is 0..31 (WellFormed). -/
  | rddig (idx : DWord)
  /-- `CHKLEN` (40_padding_unit.md R121). -/
  | chklen
  /-- `PLAN` (R122). -/
  | plan
  /-- `HINIT` (43_hash_accumulator.md R178). -/
  | hinit
  /-- `PADBLK` (40_padding_unit.md R125). -/
  | padblk
  /-- `WLOAD` (41_schedule_expander.md R144). -/
  | wload
  /-- `WEXP` (R145). -/
  | wexp
  /-- `RINIT` (42_compression_rounds.md R161). -/
  | rinit
  /-- `ROUND` (R162). -/
  | round
  /-- `HACC` (43_hash_accumulator.md R179). -/
  | hacc
deriving DecidableEq, Repr

end Sys2Proof
end

