-- ==== Sys2Proof/WellFormed.lean ====
section
/-! DEFINITION. Which instruction terms the encodings of 30_encoding.md can express. -/

namespace Sys2Proof

/-- The one operand bound of the table: `RDDIG` takes `idx` 0..31 (R101). Every other operand fills its field. -/
def Instr.wf : Instr → Bool
  | .wrmsg _ _ => true
  | .wrlen _ => true
  | .start => true
  | .rdstat => true
  | .rddig idx => decide (idx.toNat ≤ 31)
  | .chklen => true
  | .plan => true
  | .hinit => true
  | .padblk => true
  | .wload => true
  | .wexp => true
  | .rinit => true
  | .round => true
  | .hacc => true

end Sys2Proof
end

