-- ==== Sys2Proof/Decode.lean ====
section
/-! DEFINITION. Decoding and encoding of command words and micro-operation codes (30_encoding.md R100 to R110). -/

namespace Sys2Proof

/-- An encoded operation: an 80-bit command word (format HC) or a 4-bit PHASE code (format MO). -/
inductive Code where
  | hc (w : CommandWord)
  | mo (c : MicroCode)
deriving DecidableEq, Repr

/-- Why a code is no operation (R104, R108). -/
inductive DecodeReject where
  /-- `op` is none of 0x01..0x05 (R108). -/
  | unassignedOpcode
  /-- START or RDSTAT with A other than 0 (R108). -/
  | operandANotZero
  /-- WRLEN, START, RDSTAT or RDDIG with B other than 0 (R108). -/
  | operandBNotZero
  /-- RDDIG with A above 31 (R108). -/
  | digestIndexTooLarge
  /-- PHASE 0, 10 or 11: a rest phase, which performs no operation (R104). -/
  | restPhase
  /-- PHASE 12..15, reserved (R104). -/
  | reservedPhase
  /-- Fewer than the ten bytes of a command word (R100). -/
  | truncatedCommand
deriving DecidableEq, Repr

/-- Bits [79:72] of a command word (R100). -/
def opField (w : CommandWord) : Byte := w.extractLsb' 72 8

/-- Bits [71:8] of a command word (R100). -/
def aField (w : CommandWord) : DWord := w.extractLsb' 8 64

/-- Bits [7:0] of a command word (R100). -/
def bField (w : CommandWord) : Byte := w.extractLsb' 0 8

/-- `op ‖ A ‖ B` (R100). -/
def commandWord (op : Byte) (a : DWord) (b : Byte) : CommandWord := op ++ a ++ b

/-- The opcode map of R101, with the must-be-zero operands of R108. -/
def decodeCommand (w : CommandWord) : Except DecodeReject Instr :=
  if opField w = 0x01 then .ok (.wrmsg (aField w) (bField w))
  else if opField w = 0x02 then
    if bField w ≠ 0 then .error .operandBNotZero else .ok (.wrlen (aField w))
  else if opField w = 0x03 then
    if aField w ≠ 0 then .error .operandANotZero
    else if bField w ≠ 0 then .error .operandBNotZero
    else .ok .start
  else if opField w = 0x04 then
    if aField w ≠ 0 then .error .operandANotZero
    else if bField w ≠ 0 then .error .operandBNotZero
    else .ok .rdstat
  else if opField w = 0x05 then
    if 31 < (aField w).toNat then .error .digestIndexTooLarge
    else if bField w ≠ 0 then .error .operandBNotZero
    else .ok (.rddig (aField w))
  else .error .unassignedOpcode

/-- The micro-operation codes of R104. -/
def decodeMicro (c : MicroCode) : Except DecodeReject Instr :=
  if c = 1 then .ok .chklen
  else if c = 2 then .ok .plan
  else if c = 3 then .ok .hinit
  else if c = 4 then .ok .padblk
  else if c = 5 then .ok .wload
  else if c = 6 then .ok .wexp
  else if c = 7 then .ok .rinit
  else if c = 8 then .ok .round
  else if c = 9 then .ok .hacc
  else if c = 0 ∨ c = 10 ∨ c = 11 then .error .restPhase
  else .error .reservedPhase

/-- Decoding of either format; total, a code that is no operation is rejected by name. -/
def decode : Code → Except DecodeReject Instr
  | .hc w => decodeCommand w
  | .mo c => decodeMicro c

/-- The word of an instruction, from the rows of R101 and R104. -/
def encode : Instr → Code
  | .wrmsg addr data => .hc (commandWord 0x01 addr data)
  | .wrlen value => .hc (commandWord 0x02 value 0)
  | .start => .hc (commandWord 0x03 0 0)
  | .rdstat => .hc (commandWord 0x04 0 0)
  | .rddig idx => .hc (commandWord 0x05 idx 0)
  | .chklen => .mo 1
  | .plan => .mo 2
  | .hinit => .mo 3
  | .padblk => .mo 4
  | .wload => .mo 5
  | .wexp => .mo 6
  | .rinit => .mo 7
  | .round => .mo 8
  | .hacc => .mo 9

/-! ### The command word as bytes (R69, R100: most significant byte first) -/

/-- Byte `k` (0..9) of the ten bytes a platform sends. -/
def commandByte (w : CommandWord) (k : Nat) : Byte := w.extractLsb' (72 - 8 * k) 8

/-- The ten bytes of a command word: byte 0 = op, bytes 1..8 = A big-endian, byte 9 = B. -/
def commandBytes (w : CommandWord) : List Byte := (List.range 10).map (commandByte w)

/-- One more byte at the less significant end. -/
def pushByte (w : CommandWord) (b : Byte) : CommandWord := (w <<< 8) ||| b.setWidth 80

/-- Decoding from a stream of bytes: the instruction and the bytes after its ten. R110: one length, no prefix. -/
def decodeBytes (bytes : List Byte) : Except DecodeReject (Instr × List Byte) :=
  if bytes.length < 10 then .error .truncatedCommand
  else match decodeCommand ((bytes.take 10).foldl pushByte 0) with
    | .ok i => .ok (i, bytes.drop 10)
    | .error r => .error r

/-! ### The machine-readable table (R113) -/

/-- One HC row of opcode_table.json: a word `w` selects the row when `(w and mask) = match` (R101). -/
structure CommandRow where
  mnemonic : String
  pattern : CommandWord
  mask : CommandWord
deriving DecidableEq, Repr

/-- The five HC rows, `match` and `mask` as the table has them. -/
def commandRows : List CommandRow := [
  ⟨"WRMSG", 0x01000000000000000000, 0xFF000000000000000000⟩,
  ⟨"WRLEN", 0x02000000000000000000, 0xFF0000000000000000FF⟩,
  ⟨"START", 0x03000000000000000000, 0xFFFFFFFFFFFFFFFFFFFF⟩,
  ⟨"RDSTAT", 0x04000000000000000000, 0xFFFFFFFFFFFFFFFFFFFF⟩,
  ⟨"RDDIG", 0x05000000000000000000, 0xFFFFFFFFFFFFFFFFE0FF⟩]

/-- `(w and mask) = match` (R101). -/
def CommandRow.selects (r : CommandRow) (w : CommandWord) : Bool := w &&& r.mask == r.pattern

/-- The nine MO rows of opcode_table.json (R104): mnemonic and PHASE code. -/
def microRows : List (String × MicroCode) := [
  ("CHKLEN", 1), ("PLAN", 2), ("HINIT", 3), ("PADBLK", 4), ("WLOAD", 5), ("WEXP", 6), ("RINIT", 7), ("ROUND", 8),
  ("HACC", 9)]

/-- The opcode table's mnemonic of an instruction. -/
def Instr.mnemonic : Instr → String
  | .wrmsg _ _ => "WRMSG"
  | .wrlen _ => "WRLEN"
  | .start => "START"
  | .rdstat => "RDSTAT"
  | .rddig _ => "RDDIG"
  | .chklen => "CHKLEN"
  | .plan => "PLAN"
  | .hinit => "HINIT"
  | .padblk => "PADBLK"
  | .wload => "WLOAD"
  | .wexp => "WEXP"
  | .rinit => "RINIT"
  | .round => "ROUND"
  | .hacc => "HACC"

/-- The code that `nbits` bits `w`, numbered as opcode_table.json numbers them, stand for: a command word has 80 bits,
anything shorter is a row of format MO, whose code is 4 bits wide. -/
def tableCode (nbits w : Nat) : Option Code :=
  if nbits < 80 then
    if w < 16 then some (.mo (BitVec.ofNat 4 w)) else none
  else if w < 2 ^ 80 then some (.hc (BitVec.ofNat 80 w)) else none

/-- The instruction the decoder reads from a table word. A command word is laid out as its ten bytes and decoded from
them; a micro-operation code is never serialised (R104), it is decoded as it stands. -/
def decodeTableWord (nbits w : Nat) : Option Instr :=
  match tableCode nbits w with
  | some (.hc cw) => (decodeBytes (commandBytes cw)).toOption.map Prod.fst
  | some (.mo c) => (decodeMicro c).toOption
  | none => none

end Sys2Proof
end

