-- ==== Sys2Proof/Config.lean ====
section
/-! DEFINITION. What is fixed for one engine instance (10_state.md R42): the capacity of message memory. -/

namespace Sys2Proof

/-- The parameters of an instance. `MSG_CAPACITY` is open, `1 <= MSG_CAPACITY <= 2^64` (00_scope.md R7): it is held
as the last address of message memory, so that every value of this type is a legal capacity and no other exists. -/
structure Config where
  /-- `MSG_CAPACITY - 1`. -/
  lastMsgAddr : DWord
deriving DecidableEq, Repr

/-- `MSG_CAPACITY` in bytes (R7). -/
def Config.msgCapacity (c : Config) : Nat := c.lastMsgAddr.toNat + 1

/-- The instance of `State.reset`: capacity `2^64`, which 92_eei_decisions.md D5 lets a model take.
DESIGN CHOICE (log 2): unsafe for a claim that rests on it; no statement does. -/
def Config.full : Config := ⟨0xFFFFFFFFFFFFFFFF⟩

end Sys2Proof
end

