-- ==== Sys2Proof/Machine/State.lean ====
section
/-! DEFINITION. The state of one engine instance and of its host port (10_state.md R20), as plain data. -/

namespace Sys2Proof.Machine

/-- `PHASE` (10_state.md R30). The codes 12..15 are never taken (30_encoding.md R108), so the type has no value for
them (log 12). -/
inductive Phase where
  | idle | chklen | plan | hinit | padblk | wload | wexp | rinit | round | hacc | done | error
deriving DecidableEq, Repr

/-- `ERRCODE` (R33, 30_encoding.md R105). -/
inductive ErrCode where
  | noError | inputTooLarge
deriving DecidableEq, Repr

/-- `FAULT` (R34, 30_encoding.md R106). -/
inductive FaultCode where
  | noFault | illegalCommand | busyAccess | digestNotValid | msgUnwritten | msgRange
deriving DecidableEq, Repr

/-- A storage element that reset makes unwritten (R40): the value it holds and whether it has been written since reset.
The mark is the spec's "unwritten"; the value held before the first write is a placeholder that 93_implementation_defined.md
I1 allows (log 1). -/
structure Slot (n : Nat) where
  value : BitVec n
  written : Bool
deriving DecidableEq, Repr

/-- An element nothing has written since reset. DESIGN CHOICE (log 1): the placeholder is 0. -/
def Slot.unwritten {n : Nat} : Slot n := ⟨0, false⟩

/-- Message memory MSG (R37) as (address, byte) pairs, addresses strictly rising; an address that is not listed is
unwritten and holds no value. -/
abbrev Memory := List Host.Cell

/-- The complete state of one engine instance: the storage rows of R20. STATUS, DIGEST and PAD are views (Flags,
Operands), K and IV are constants (Constants). -/
structure Engine where
  /-- `R.a .. R.h` = `R[0..7]` (R21). -/
  r : Vector (Slot 32) 8
  /-- `H[0..7]` (R22). -/
  h : Vector (Slot 32) 8
  /-- `W[0..63]` (R23). -/
  w : Vector (Slot 32) 64
  /-- `BLK[0..63]` (R24). -/
  blk : Vector (Slot 8) 64
  /-- `LEN` (R27). -/
  len : DWord
  /-- `PLEN` (R28). -/
  plen : Slot 64
  /-- `OFF` (R29). -/
  off : Slot 64
  /-- `PHASE` (R30); with `T` and `OFF` the sequencer position, in the place of a program counter (R32). -/
  phase : Phase
  /-- `T` (R31). -/
  t : BitVec 6
  /-- `ERRCODE` (R33). -/
  errcode : ErrCode
  /-- `FAULT` (R34). -/
  fault : FaultCode
  /-- `MSG` (R37). -/
  msg : Memory
deriving DecidableEq, Repr

/-- The engine after the reset event (R43, 70_reset_and_hazards.md R260). -/
def Engine.reset : Engine where
  r := Vector.replicate 8 Slot.unwritten
  h := Vector.replicate 8 Slot.unwritten
  w := Vector.replicate 64 Slot.unwritten
  blk := Vector.replicate 64 Slot.unwritten
  len := 0
  plen := Slot.unwritten
  off := Slot.unwritten
  phase := .idle
  t := 0
  errcode := .noError
  fault := .noFault
  msg := []

/-- The response to a command (30_encoding.md R102). -/
inductive Response where
  | ack
  | data32 (v : Word)
  | data8 (v : Byte)
  | nak
deriving DecidableEq, Repr

/-- One place in the total order of host actions and sequencer steps (20_memory.md R75). -/
inductive Turn where
  /-- The host issues a command word. -/
  | command (w : CommandWord)
  /-- The reset event (70_reset_and_hazards.md R260). -/
  | reset
  /-- The sequencer has the turn (`STEP`, 30_encoding.md R111). -/
  | seq
deriving DecidableEq, Repr

/-- One engine instance and its host port. -/
structure State where
  /-- The parameters of the instance; no operation changes them (R42). -/
  config : Config
  /-- The spec's state (R20). -/
  eng : Engine
  /-- The host's future actions and their place among the sequencer's steps, next first. The model's own field (log 3). -/
  agenda : List Turn
  /-- The responses the host has received, oldest first. The model's own field (log 5). -/
  replies : List Response
deriving DecidableEq, Repr

/-- Why the machine stops. Each is a sequencer position outside the spec: 44_sequencer.md R193 proves that no run reaches
one, and the spec gives no effect there (log 7). All are safe: the model stops where nothing is stated.
The five faults of 60_exceptions.md are no stops: they are values of the FAULT register, in a next state. -/
inductive Fault where
  /-- Raised by WLOAD with T > 15 and by WEXP with T < 16; R144 and R145 give no effect there. Safe. -/
  | scheduleIndexOutOfRange
  /-- Raised by PLAN with LEN >= 2^61, which CHKLEN rejects before (R122). Safe. -/
  | lengthNotChecked
  /-- Raised by PADBLK when some `PAD(OFF + j)` has no meaning: `OFF + 64 > PLEN`, or PLEN without room for marker and
  length (20_memory.md R63, R124). Safe. -/
  | paddedByteUndefined
  /-- Raised by HACC when `OFF + 64` does not fit the 64 bits of OFF (R156 says it always does). Safe. -/
  | offsetOverflow
deriving DecidableEq, Repr

/-- Why the machine has no meaning for an instruction. -/
inductive Refusal where
  /-- Raised by an arm of `exec` whose instruction has no meaning yet; there is none. Safe. -/
  | notModelled (mnemonic : String)
deriving DecidableEq, Repr

/-- The machine right after reset (R43): nothing listed in memory, the sequencer at rest, no host action pending. -/
def State.reset : State where
  config := Config.full
  eng := Engine.reset
  agenda := []
  replies := []

end Sys2Proof.Machine
end

