-- ==== Sys2Proof/Machine/Flags.lean ====
section
/-! DEFINITION. The codes of PHASE, ERRCODE and FAULT, the four status flags and the STATUS word (10_state.md R35, R36,
30_encoding.md R103 to R106). No flag is stored and no arithmetic operation sets one. -/

namespace Sys2Proof.Machine

/-- The PHASE code (30_encoding.md R104). -/
def Phase.code : Phase → MicroCode
  | .idle => 0
  | .chklen => 1
  | .plan => 2
  | .hinit => 3
  | .padblk => 4
  | .wload => 5
  | .wexp => 6
  | .rinit => 7
  | .round => 8
  | .hacc => 9
  | .done => 10
  | .error => 11

/-- The phase of a code; none for the reserved codes 12..15 (R104). -/
def Phase.ofCode (c : MicroCode) : Option Phase :=
  [Phase.idle, .chklen, .plan, .hinit, .padblk, .wload, .wexp, .rinit, .round, .hacc, .done, .error][c.toNat]?

/-- The ERRCODE value (R105). -/
def ErrCode.code : ErrCode → BitVec 8
  | .noError => 0
  | .inputTooLarge => 1

/-- The FAULT value (R106). -/
def FaultCode.code : FaultCode → BitVec 8
  | .noFault => 0
  | .illegalCommand => 1
  | .busyAccess => 2
  | .digestNotValid => 3
  | .msgUnwritten => 4
  | .msgRange => 5

/-- `BUSY = (1 <= PHASE <= 9)` (R36). -/
def Engine.busy (e : Engine) : Bool := decide (1 ≤ e.phase.code.toNat ∧ e.phase.code.toNat ≤ 9)

/-- `DONE = (PHASE = 10)` (R36). -/
def Engine.done (e : Engine) : Bool := e.phase.code == 10

/-- `ERR = (PHASE = 11)` (R36). -/
def Engine.err (e : Engine) : Bool := e.phase.code == 11

/-- `FAULTED = (FAULT != 0)` (R36). -/
def Engine.faulted (e : Engine) : Bool := e.fault.code != 0

/-- The STATUS word (R103): bits 31..30 zero, 29..24 T, 23..16 FAULT, 15..8 ERRCODE, 7 FAULTED, 6 ERR, 5 DONE, 4 BUSY,
3..0 PHASE. -/
def Engine.status (e : Engine) : Word :=
  0#2 ++ e.t ++ e.fault.code ++ e.errcode.code ++ BitVec.ofBool e.faulted ++ BitVec.ofBool e.err ++
    BitVec.ofBool e.done ++ BitVec.ofBool e.busy ++ e.phase.code

end Sys2Proof.Machine
end

