-- ==== Sys2Proof/Machine/Ops.lean ====
section
/-! DEFINITION. The operations every meaning is made of: storage elements, message memory, responses, the entry into an
error or a fault, and the reset event, which is the return from one. -/

namespace Sys2Proof.Machine

/-! ### Storage elements (10_state.md R40) -/

/-- A write: the element holds `v` and is written from now on. -/
def Slot.put {n : Nat} (v : BitVec n) : Slot n := ⟨v, true⟩

/-- The values a register file holds. -/
def values {n k : Nat} (f : Vector (Slot n) k) : Vector (BitVec n) k := Vector.ofFn fun i => f[i].value

/-- A write of every element of a register file. -/
def putAll {n k : Nat} (v : Vector (BitVec n) k) : Vector (Slot n) k := Vector.ofFn fun i => Slot.put v[i]

/-! ### Message memory (20_memory.md R61, R62) -/

/-- The canonical form: addresses strictly rising. An unlisted address holds no value, so no entry can equal what one
reads as. -/
abbrev Memory.wf (m : Memory) : Prop := m.Pairwise fun c d => c.1 < d.1

/-- The byte at an address, or none where nothing has written it since reset. -/
def Memory.read : Memory → Nat → Option Byte
  | [], _ => none
  | (k, b) :: rest, a => if k = a then some b else Memory.read rest a

/-- Writes one byte and keeps the canonical form. -/
def Memory.write : Memory → Nat → Byte → Memory
  | [], a, v => [(a, v)]
  | (k, b) :: rest, a, v =>
    if a < k then (a, v) :: (k, b) :: rest
    else if a = k then (a, v) :: rest
    else (k, b) :: Memory.write rest a v

/-- `MemWrite(MSG, addr, 1, v)` (R61): the range check comes first. -/
def hostWrite (c : Config) (m : Memory) (addr : DWord) (v : Byte) : Except FaultCode Memory :=
  if c.msgCapacity ≤ addr.toNat then .error .msgRange else .ok (Memory.write m addr.toNat v)

/-- `MemRead(MSG, addr, 1)` (R62): range before written-ness. -/
def engineRead (c : Config) (m : Memory) (addr : Nat) : Except FaultCode Byte :=
  if c.msgCapacity ≤ addr then .error .msgRange
  else match Memory.read m addr with
    | none => .error .msgUnwritten
    | some b => .ok b

/-- `n` reads `f 0 .. f (n-1)` in ascending order; the first that fails decides (60_exceptions.md R239). -/
def collect {ε α : Type} : (n : Nat) → (Nat → Except ε α) → Except ε (Vector α n)
  | 0, _ => .ok #v[]
  | n + 1, f =>
    match collect n f with
    | .error x => .error x
    | .ok v =>
      match f n with
      | .error x => .error x
      | .ok b => .ok (v.push b)

/-! ### Responses, errors and faults (30_encoding.md R102, 60_exceptions.md R230, R238) -/

/-- The command's one response (R102). -/
def State.reply (s : State) (r : Response) : State := { s with replies := s.replies ++ [r] }

/-- Entry into the faulted state (R238, R240): the code goes into FAULT if FAULT was 0, and nothing else changes. -/
def raiseFault (f : FaultCode) (s : State) : State :=
  if s.eng.fault = .noFault then { s with eng := { s.eng with fault := f } } else s

/-- A command that faults: FAULT takes the code, nothing else changes, the response is `Nak` (R210). -/
def commandFault (f : FaultCode) (s : State) : State := (raiseFault f s).reply .nak

/-- `raise InputTooLarge` (R230): `ERRCODE <- 1`, `PHASE <- ERROR`, nothing else. -/
def raiseInputTooLarge (s : State) : State :=
  { s with eng := { s.eng with errcode := .inputTooLarge, phase := .error } }

/-- The reset event (70_reset_and_hazards.md R260): atomic, total, in any phase, the only way out of a fault (R242).
The instance's parameters, the host's later actions and the responses it has received are not the engine's. -/
def resetEvent (s : State) : State := { s with eng := Engine.reset }

/-- Step 3 of R210: while FAULT is not 0 a command changes nothing and is answered `Nak`; otherwise `body` is the
state after the command's own rule. -/
def unlessHalted (s body : State) : Host.Outcome State Fault Refusal :=
  .next (if s.eng.fault = .noFault then body else s.reply .nak)

/-! ### The sequencer's loops (44_sequencer.md R191) -/

/-- End of one pass of a counted loop: at `T = last`, T takes `first` and the next phase follows; before it, T advances
by 1 and PHASE stays (R144, R145, R162). -/
def Engine.loopStep (last first : BitVec 6) (following : Phase) (e : Engine) : Engine :=
  if e.t = last then { e with t := first, phase := following } else { e with t := e.t + 1 }

end Sys2Proof.Machine
end

