-- ==== Sys2Proof/Machine/Operands.lean ====
section
/-! DEFINITION. The operand forms: how bytes make words, the length field, the digest view, and the padded buffer PAD
(30_encoding.md R90 to R94). -/

namespace Sys2Proof.Machine

/-- `be32(b0, b1, b2, b3)`, `b0` most significant (00_scope.md R10). -/
def be32 (b0 b1 b2 b3 : Byte) : Word := b0 ++ b1 ++ b2 ++ b3

/-- `be64byte(v, k) = v[63-8k : 56-8k]` for k = 0..7 (R10, R91). -/
def be64byte (v : DWord) (k : Nat) : Byte := v.extractLsb' (56 - 8 * k) 8

/-- Word `t` of a block, t = 0..15: bytes 4t .. 4t+3, most significant first (R92). -/
def blockWord (b : Vector Byte 64) (t : Nat) (h : t < 16) : Word :=
  be32 b[4 * t] b[4 * t + 1] b[4 * t + 2] b[4 * t + 3]

/-- `DIGEST[i] = H[i >> 2][31 - 8*(i and 3) : 24 - 8*(i and 3)]` (10_state.md R38, R93). -/
def digestByte (h : Vector Word 8) (i : Fin 32) : Byte :=
  (h[i.val / 4]'(by omega)).extractLsb' (24 - 8 * (i.val % 4)) 8

/-- `PLEN` as PLAN computes it: `((L + 9 + 63) >> 6) << 6` in 64 bits (40_padding_unit.md R122). -/
def paddedLength (l : DWord) : DWord := ((l + 9 + 63) >>> 6) <<< 6

/-- Every byte of the block at OFF has a meaning: it lies inside PAD (20_memory.md R63), and PLEN leaves the room for
marker and length that makes the cases of R124 disjoint. -/
def Engine.padDefined (e : Engine) : Bool :=
  decide (e.len.toNat + 9 ≤ e.plen.value.toNat ∧ e.off.value.toNat + 64 ≤ e.plen.value.toNat)

/-- `PAD(p)` (R124): message, marker, zeros, length field. Only the first case touches memory and can fail. -/
def padByte (c : Config) (e : Engine) (p : Nat) : Except FaultCode Byte :=
  if p < e.len.toNat then engineRead c e.msg p
  else if p = e.len.toNat then .ok 0x80
  else if p < e.plen.value.toNat - 8 then .ok 0
  else .ok (be64byte (e.len <<< 3) (p - (e.plen.value.toNat - 8)))

end Sys2Proof.Machine
end

