-- ==== Sys2Proof/Machine/Datapath.lean ====
section
/-! DEFINITION. The combinational functions of the datapath (00_scope.md R10, 41_schedule_expander.md R142, R143,
42_compression_rounds.md R156 to R162). -/

namespace Sys2Proof.Machine

/-- `add32(x, y) = (x + y) mod 2^32` (R156): the carry is dropped, no flag. -/
def add32 (x y : Word) : Word := x + y

/-- `rotr(x, n)`, 0 < n < 32 (R10); right is towards bit 0 (PRESUMED, log 11). -/
def rotr (x : Word) (n : Nat) : Word := (x >>> n) ||| (x <<< (32 - n))

/-- `shr(x, n)`: logical, zeros enter at bit 31 (R10). -/
def shr (x : Word) (n : Nat) : Word := x >>> n

/-- `not32(x) = x xor 0xFFFFFFFF` (R10). -/
def not32 (x : Word) : Word := x ^^^ 0xFFFFFFFF

/-- σ0 (R142). -/
def ssig0 (x : Word) : Word := rotr x 7 ^^^ rotr x 18 ^^^ shr x 3

/-- σ1 (R143). -/
def ssig1 (x : Word) : Word := rotr x 17 ^^^ rotr x 19 ^^^ shr x 10

/-- Σ0 (R157). -/
def bsig0 (x : Word) : Word := rotr x 2 ^^^ rotr x 13 ^^^ rotr x 22

/-- Σ1 (R158). -/
def bsig1 (x : Word) : Word := rotr x 6 ^^^ rotr x 11 ^^^ rotr x 25

/-- Ch (R159). -/
def ch (e f g : Word) : Word := (e &&& f) ^^^ (not32 e &&& g)

/-- Maj (R160). -/
def maj (a b c : Word) : Word := (a &&& b) ^^^ (a &&& c) ^^^ (b &&& c)

/-- `W[t-16] +32 ssig0(W[t-15]) +32 W[t-7] +32 ssig1(W[t-2])` (R145). -/
def expandWord (w16 w15 w7 w2 : Word) : Word := add32 (add32 (add32 w16 (ssig0 w15)) w7) (ssig1 w2)

/-- `T1` of a round (R162), from the registers before it. -/
def roundT1 (k w : Word) (r : Vector Word 8) : Word :=
  add32 (add32 (add32 (add32 r[7] (bsig1 r[4])) (ch r[4] r[5] r[6])) k) w

/-- `T2` of a round (R162). -/
def roundT2 (r : Vector Word 8) : Word := add32 (bsig0 r[0]) (maj r[0] r[1] r[2])

/-- The registers after a round (R162): a simultaneous assignment, every right-hand side uses the old values. -/
def roundStep (k w : Word) (r : Vector Word 8) : Vector Word 8 :=
  #v[add32 (roundT1 k w r) (roundT2 r), r[0], r[1], r[2], add32 r[3] (roundT1 k w r), r[4], r[5], r[6]]

/-- Eight independent additions (43_hash_accumulator.md R179): no carry passes from one word to another. -/
def addLanes (x y : Vector Word 8) : Vector Word 8 := Vector.ofFn fun i => add32 x[i] y[i]

end Sys2Proof.Machine
end

