-- ==== Sys2Proof/Machine/Accumulator.lean ====
section
/-! DEFINITION. The hash-state accumulator: HINIT, HACC (43_hash_accumulator.md R178, R179). -/

namespace Sys2Proof.Machine

/-- HINIT (R178): H <- IV, whatever H held. -/
def execHinit (s : State) : Host.Outcome State Fault Refusal :=
  .next { s with eng := { s.eng with h := putAll IV, phase := .padblk } }

/-- HACC (R179): the loop test is on byte offsets, `OFF + 64 < PLEN` (70_reset_and_hazards.md R268). -/
def execHacc (s : State) : Host.Outcome State Fault Refusal :=
  if s.eng.off.value.toNat + 64 < 2 ^ 64 then
    .next { s with eng := { s.eng with
      h := putAll (addLanes (values s.eng.h) (values s.eng.r))
      off := Slot.put (s.eng.off.value + 64)
      phase := if s.eng.off.value.toNat + 64 < s.eng.plen.value.toNat then .padblk else .done } }
  else .fault .offsetOverflow

end Sys2Proof.Machine
end

