-- ==== Sys2Proof/Machine/Compression.lean ====
section
/-! DEFINITION. The compression pipeline: RINIT, ROUND (42_compression_rounds.md R161, R162). -/

namespace Sys2Proof.Machine

/-- RINIT (R161): R <- H; H is not changed. -/
def execRinit (s : State) : Host.Outcome State Fault Refusal :=
  .next { s with eng := { s.eng with r := putAll (values s.eng.h), t := 0, phase := .round } }

/-- ROUND (R162), T = 0..63, with K[T] and W[T]. -/
def execRound (s : State) : Host.Outcome State Fault Refusal :=
  .next { s with eng := Engine.loopStep 63 0 .hacc { s.eng with
    r := putAll (roundStep (K[s.eng.t.toNat]'(by have := s.eng.t.isLt; omega))
      (s.eng.w[s.eng.t.toNat]'(by have := s.eng.t.isLt; omega)).value (values s.eng.r)) } }

end Sys2Proof.Machine
end

