-- ==== Sys2Proof/Machine/HostCommands.lean ====
section
/-! DEFINITION. The five host commands (45_host_commands.md R210 to R215). An illegal word is no instruction; it is
handled where the word is decoded (Agents). -/

namespace Sys2Proof.Machine

/-- WRMSG addr, data (R211); BusyAccess before MsgRange (60_exceptions.md R239). -/
def execWrmsg (addr : DWord) (data : Byte) (s : State) : Host.Outcome State Fault Refusal :=
  unlessHalted s <|
    if s.eng.busy then commandFault .busyAccess s
    else match hostWrite s.config s.eng.msg addr data with
      | .error f => commandFault f s
      | .ok m => State.reply { s with eng := { s.eng with msg := m } } .ack

/-- WRLEN value (R212): every u64 is accepted. -/
def execWrlen (value : DWord) (s : State) : Host.Outcome State Fault Refusal :=
  unlessHalted s <|
    if s.eng.busy then commandFault .busyAccess s
    else State.reply { s with eng := { s.eng with len := value } } .ack

/-- START (R213). -/
def execStart (s : State) : Host.Outcome State Fault Refusal :=
  unlessHalted s <|
    if s.eng.busy then commandFault .busyAccess s
    else State.reply { s with eng := { s.eng with errcode := .noError, t := 0, phase := .chklen } } .ack

/-- RDSTAT (R214): in every phase and whatever FAULT holds; no state change. -/
def execRdstat (s : State) : Host.Outcome State Fault Refusal :=
  .next (s.reply (.data32 s.eng.status))

/-- RDDIG idx (R215). An index above 31 is an illegal word, decided before the phase test (R239). -/
def execRddig (idx : DWord) (s : State) : Host.Outcome State Fault Refusal :=
  unlessHalted s <|
    if h : idx.toNat < 32 then
      if s.eng.phase = .done then s.reply (.data8 (digestByte (values s.eng.h) ⟨idx.toNat, h⟩))
      else commandFault .digestNotValid s
    else commandFault .illegalCommand s

end Sys2Proof.Machine
end

