-- ==== Sys2Proof/Machine/Padding.lean ====
section
/-! DEFINITION. The padding unit: CHKLEN, PLAN, PADBLK (40_padding_unit.md R121, R122, R125). -/

namespace Sys2Proof.Machine

/-- CHKLEN (R121): the test is on L, not on the 64-bit product. -/
def execChklen (s : State) : Host.Outcome State Fault Refusal :=
  if 2 ^ 61 ≤ s.eng.len.toNat then .next (raiseInputTooLarge s)
  else .next { s with eng := { s.eng with phase := .plan } }

/-- PLAN (R122), for the L < 2^61 that CHKLEN guarantees. -/
def execPlan (s : State) : Host.Outcome State Fault Refusal :=
  if 2 ^ 61 ≤ s.eng.len.toNat then .fault .lengthNotChecked
  else .next { s with eng := { s.eng with
    plen := Slot.put (paddedLength s.eng.len), off := Slot.put 0, phase := .hinit } }

/-- PADBLK (R125): all 64 bytes are read before any is written; a fault aborts the whole step. -/
def execPadblk (s : State) : Host.Outcome State Fault Refusal :=
  if s.eng.padDefined then
    match collect 64 fun j => padByte s.config s.eng (s.eng.off.value.toNat + j) with
    | .error f => .next (raiseFault f s)
    | .ok v => .next { s with eng := { s.eng with blk := putAll v, t := 0, phase := .wload } }
  else .fault .paddedByteUndefined

end Sys2Proof.Machine
end

