-- ==== Sys2Proof/Machine/Schedule.lean ====
section
/-! DEFINITION. The message-schedule expander: WLOAD, WEXP (41_schedule_expander.md R144, R145). -/

namespace Sys2Proof.Machine

/-- WLOAD (R144), T = 0..15. -/
def execWload (s : State) : Host.Outcome State Fault Refusal :=
  if h : s.eng.t.toNat < 16 then
    .next { s with eng := Engine.loopStep 15 16 .wexp { s.eng with
      w := s.eng.w.set s.eng.t.toNat (Slot.put (blockWord (values s.eng.blk) s.eng.t.toNat h)) } }
  else .fault .scheduleIndexOutOfRange

/-- WEXP (R145), T = 16..63. -/
def execWexp (s : State) : Host.Outcome State Fault Refusal :=
  if 16 ≤ s.eng.t.toNat then
    .next { s with eng := Engine.loopStep 63 0 .rinit { s.eng with
      w := s.eng.w.set s.eng.t.toNat (Slot.put (expandWord
        (s.eng.w[s.eng.t.toNat - 16]'(by have := s.eng.t.isLt; omega)).value
        (s.eng.w[s.eng.t.toNat - 15]'(by have := s.eng.t.isLt; omega)).value
        (s.eng.w[s.eng.t.toNat - 7]'(by have := s.eng.t.isLt; omega)).value
        (s.eng.w[s.eng.t.toNat - 2]'(by have := s.eng.t.isLt; omega)).value))
        (by have := s.eng.t.isLt; omega) } }
  else .fault .scheduleIndexOutOfRange

end Sys2Proof.Machine
end

