-- ==== Sys2Proof/Machine/Dispatch.lean ====
section
/-! DEFINITION. One arm per instruction of opcode_table.json. -/

namespace Sys2Proof.Machine

def exec (i : Instr) (s : State) : Host.Outcome State Fault Refusal :=
  match i with
  | .wrmsg addr data => Sys2Proof.Machine.execWrmsg addr data s
  | .wrlen value => Sys2Proof.Machine.execWrlen value s
  | .start => Sys2Proof.Machine.execStart s
  | .rdstat => Sys2Proof.Machine.execRdstat s
  | .rddig idx => Sys2Proof.Machine.execRddig idx s
  | .chklen => Sys2Proof.Machine.execChklen s
  | .plan => Sys2Proof.Machine.execPlan s
  | .hinit => Sys2Proof.Machine.execHinit s
  | .padblk => Sys2Proof.Machine.execPadblk s
  | .wload => Sys2Proof.Machine.execWload s
  | .wexp => Sys2Proof.Machine.execWexp s
  | .rinit => Sys2Proof.Machine.execRinit s
  | .round => Sys2Proof.Machine.execRound s
  | .hacc => Sys2Proof.Machine.execHacc s

end Sys2Proof.Machine
end

