-- ==== Sys2Proof/Machine/Agents.lean ====
section
/-! DEFINITION. The two agents (00_scope.md R15): the host's turn, the sequencer's turn, and how a table word is placed
where the next step takes it up. -/

namespace Sys2Proof.Machine

/-- A word that selects no row (30_encoding.md R108): steps 3 and 4 of R210. -/
def illegalWord (s : State) : Host.Outcome State Fault Refusal :=
  unlessHalted s (commandFault .illegalCommand s)

/-- The host issues the command word `w` (45_host_commands.md R210). -/
def commandTurn (w : CommandWord) (s : State) : Host.Outcome State Fault Refusal :=
  match decodeCommand w with
  | .ok i => exec i s
  | .error _ => illegalWord s

/-- SEQ has a step exactly when `1 <= PHASE <= 9` and `FAULT = 0` (44_sequencer.md R192). -/
def Engine.seqEnabled (e : Engine) : Bool := e.busy && decide (e.fault = .noFault)

/-- The sequencer has the turn: it performs the micro-operation whose code is in PHASE (R104, R192), and where it has no
step nothing changes (R190). -/
def seqTurn (s : State) : Host.Outcome State Fault Refusal :=
  if s.eng.seqEnabled then
    match decodeMicro s.eng.phase.code with
    | .ok i => exec i s
    | .error _ => .next s
  else .next s

/-- One place in the total order (20_memory.md R75). -/
def takeTurn (s : State) : Turn → Host.Outcome State Fault Refusal
  | .command w => commandTurn w s
  | .reset => .next (resetEvent s)
  | .seq => seqTurn s

/-- The next place in the total order: the agenda's first turn; with no host action pending, the sequencer's (log 3). -/
def nextTurn (s : State) : Host.Outcome State Fault Refusal :=
  match s.agenda with
  | [] => seqTurn s
  | turn :: rest => takeTurn { s with agenda := rest } turn

/-- The range of T in a phase (44_sequencer.md R193 e). -/
def tInRange (p : Phase) (t : BitVec 6) : Bool :=
  match p with
  | .wload => decide (t.toNat ≤ 15)
  | .wexp => decide (16 ≤ t.toNat)
  | .round => true
  | .idle | .chklen | .plan | .hinit | .padblk | .rinit | .hacc | .done | .error => decide (t = 0)

/-- The first value T takes in a phase (R191). -/
def firstT (p : Phase) : BitVec 6 := if p = .wexp then 16 else 0

/-- Places the sequencer at the micro-operation of phase `p` (log 8): PHASE takes it, FAULT is 0, T stays if the phase
allows it and else takes the phase's first value, and where the phase reads OFF and PLEN and they do not describe a block,
they take the values PLAN gives. -/
def placePhase (p : Phase) (s : State) : State :=
  let e : Engine := { s.eng with
    phase := p, fault := .noFault, t := if tInRange p s.eng.t then s.eng.t else firstT p }
  let e : Engine :=
    if (p = .padblk ∨ p = .hacc) ∧ e.padDefined = false then
      { e with plen := Slot.put (paddedLength e.len), off := Slot.put 0 }
    else e
  { s with eng := e, agenda := .seq :: s.agenda }

/-- Places a code where the next step takes it up: a command word becomes the host's next action, a micro-operation code
goes into PHASE. A code of no phase is placed nowhere. -/
def placeCode (s : State) : Code → State
  | .hc w => { s with agenda := .command w :: s.agenda }
  | .mo c =>
    match Phase.ofCode c with
    | some p => placePhase p s
    | none => s

end Sys2Proof.Machine
end

