-- ==== Sys2Proof/Machine/Step.lean ====
section
/-! DEFINITION. One step of the machine, and the placing of a table word. -/

namespace Sys2Proof.Machine

/-- One step: one place in the total order of host actions and sequencer steps (20_memory.md R75). -/
def step (s : State) : Host.Outcome State Fault Refusal := nextTurn s

/-- `s` with the table word stored where `step` takes its next operation from. -/
def State.withFetchWord (s : State) (nbits w : Nat) : State :=
  match tableCode nbits w with
  | some c => placeCode s c
  | none => s

end Sys2Proof.Machine
end

