-- ==== Sys2Proof/Machine/BigStep.lean ====
section
/-! DEFINITION. The functions that the spec derives from the micro-operations: schedule (41_schedule_expander.md R146),
rounds (42_compression_rounds.md R163), compress (43_hash_accumulator.md R182), the whole padded buffer
(40_padding_unit.md R126), sha256 (44_sequencer.md R200) and hex64 (43_hash_accumulator.md R181). No step calls them. -/

namespace Sys2Proof.Machine

/-- The first `n` schedule words of a block (R146). -/
def scheduleTo (b : Vector Byte 64) : (n : Nat) → Vector Word n
  | 0 => #v[]
  | n + 1 =>
    let p := scheduleTo b n
    p.push (if h : n < 16 then blockWord b n h else expandWord p[n - 16] p[n - 15] p[n - 7] p[n - 2])

/-- `schedule(B)` (R146). -/
def schedule (b : Vector Byte 64) : Vector Word 64 := scheduleTo b 64

/-- The working registers after `n` rounds from the hash value `h` with the schedule `w` (R163). -/
def roundsTo (h : Vector Word 8) (w : Vector Word 64) : (n : Nat) → n ≤ 64 → Vector Word 8
  | 0, _ => h
  | n + 1, hn => roundStep K[n] w[n] (roundsTo h w n (by omega))

/-- `rounds(h, w)` (R163). -/
def rounds (h : Vector Word 8) (w : Vector Word 64) : Vector Word 8 := roundsTo h w 64 (Nat.le_refl 64)

/-- `compress(h, B)` (R182). -/
def compress (h : Vector Word 8) (b : Vector Byte 64) : Vector Word 8 := addLanes h (rounds h (schedule b))

/-- `ceil((L + 9) / 64) * 64` as a natural number (R123 a). -/
def padLen (l : Nat) : Nat := (l + 9 + 63) / 64 * 64

/-- The length field of a message of `l` bytes: `l * 8` as 8 bytes, big-endian (30_encoding.md R91). -/
def lengthField (l : Nat) : List Byte := (List.range 8).map (be64byte (BitVec.ofNat 64 (l * 8)))

/-- The whole padded buffer (R120, R126): message, marker, zeros up to `padLen`, length field. -/
def pad (m : List Byte) : List Byte :=
  m ++ [0x80] ++ List.replicate (padLen m.length - m.length - 9) 0 ++ lengthField m.length

/-- The padded buffer by the document's other procedure (90_conflicts.md C4): zeros until the length is 56 modulo 64. -/
def padAppend (m : List Byte) : List Byte :=
  m ++ [0x80] ++ List.replicate ((55 + 64 - m.length % 64) % 64) 0 ++ lengthField m.length

/-- Block `k` of a padded buffer: bytes `64k .. 64k+63` (R126). -/
def blockOf (p : List Byte) (k : Nat) : Vector Byte 64 := Vector.ofFn fun j => p.getD (64 * k + j.val) 0

/-- `h_k` (R200): IV folded with `compress` over the blocks 0..k-1. -/
def hashAfter (m : List Byte) : Nat → Vector Word 8
  | 0 => IV
  | k + 1 => compress (hashAfter m k) (blockOf (pad m) k)

/-- `NBLK` of a message of `l` bytes (R123 d). -/
def blockCount (l : Nat) : Nat := padLen l / 64

/-- The 32 digest bytes of a hash value (30_encoding.md R93). -/
def digestBytes (h : Vector Word 8) : List Byte := List.ofFn (digestByte h)

/-- `sha256(M)` (R200). -/
def sha256 (m : List Byte) : List Byte := digestBytes (hashAfter m (blockCount m.length))

/-- The digit of a value 0..15 (R181). The alphabet is the spec's general knowledge (G3; PRESUMED, log 21). -/
def hexDigit (n : Nat) : Char :=
  ['0', '1', '2', '3', '4', '5', '6', '7', '8', '9', 'a', 'b', 'c', 'd', 'e', 'f'].getD n '0'

/-- `hex64(D)` as its characters: two digits a byte, high nibble first (R181). -/
def hex64 (d : List Byte) : List Char := d.flatMap fun b => [hexDigit (b.toNat / 16), hexDigit (b.toNat % 16)]

end Sys2Proof.Machine
end

