-- ==== Sys2Proof/Machine/Script.lean ====
section
/-! DEFINITION. The pseudo-commands of the script notation (30_encoding.md R111, R112) as agendas. -/

namespace Sys2Proof.Machine

/-- `RDSTAT` as a turn. -/
def rdstatTurn : Turn := .command (commandWord 0x04 0 0)

/-- `START` as a turn. -/
def startTurn : Turn := .command (commandWord 0x03 0 0)

/-- `WRMSG p, b(0)`, `WRMSG p+1, b(1)`, ... -/
def writeTurns (p : Nat) : List Byte → List Turn
  | [] => []
  | b :: rest => .command (commandWord 0x01 (BitVec.ofNat 64 p) b) :: writeTurns (p + 1) rest

/-- `LOAD b0 b1 ...` (R112): the bytes from address 0 on, then `WRLEN n`. -/
def loadTurns (m : List Byte) : List Turn :=
  writeTurns 0 m ++ [.command (commandWord 0x02 (BitVec.ofNat 64 m.length) 0)]

/-- What a poll tells the host (45_host_commands.md R217, steps 4 and 5). -/
inductive PollResult where
  /-- The engine is halted: the run is void, reset is needed. -/
  | void
  /-- BUSY: poll again. -/
  | running
  /-- ERR: report InputTooLarge to the caller. -/
  | inputTooLarge
  /-- DONE: the digest can be read. -/
  | digest
  /-- No call has been started since reset. -/
  | idle
deriving DecidableEq, Repr

/-- How the host reads a STATUS word: FAULTED before BUSY, since a halted call stays BUSY (95_test_vectors.md P6). -/
def readPoll (v : Word) : PollResult :=
  if v.getLsbD 7 then .void
  else if v.getLsbD 4 then .running
  else if v.getLsbD 6 then .inputTooLarge
  else if v.getLsbD 5 then .digest
  else .idle

/-- `STEP n` (R111). -/
def stepTurns (n : Nat) : List Turn := List.replicate n .seq

/-- `n` polls of `WAIT` (R112), the sequencer taking one step before each. WAIT itself ends when a poll shows BUSY = 0;
an agenda fixes the number of polls beforehand (log 15). -/
def waitTurns : Nat → List Turn
  | 0 => []
  | n + 1 => .seq :: rdstatTurn :: waitTurns n

/-- `RDDIG i` as a turn. -/
def rddigTurn (i : Nat) : Turn := .command (commandWord 0x05 (BitVec.ofNat 64 i) 0)

/-- `GETDIGEST` (R112). -/
def getDigestTurns : List Turn := (List.range 32).map rddigTurn

/-- `HASH` (R112, R217): LOAD, START, WAIT with `n` polls, GETDIGEST. -/
def hashTurns (m : List Byte) (n : Nat) : List Turn := loadTurns m ++ [startTurn] ++ waitTurns n ++ getDigestTurns

/-- The byte a response carries, if it carries one. -/
def Response.byte? : Response → Option Byte
  | .data8 b => some b
  | .ack => none
  | .data32 _ => none
  | .nak => none

end Sys2Proof.Machine
end

