-- ==== Sys2Proof/Safety.lean ====
section
/-! DEFINITION. What counts as a safe run, in the terms claims use: the end of a call, the machine's invariant, a loaded
message, and the invariant of a running hash. -/

namespace Sys2Proof.Machine

/-- A call has ended (44_sequencer.md R201): PHASE is DONE or ERROR and FAULT = 0. -/
def Engine.callEnded (e : Engine) : Prop := (e.phase = .done ∨ e.phase = .error) ∧ e.fault = .noFault

/-- The PHASE code lies in `lo .. hi`; phases are numbered in the order a call visits them (R104). -/
def Phase.between (p : Phase) (lo hi : Nat) : Prop := lo ≤ p.code.toNat ∧ p.code.toNat ≤ hi

/-- What holds in every state a run can reach, whatever FAULT holds: 44_sequencer.md R193 (a) to (e), 10_state.md R29, R33,
R41, and the form of message memory. R193 (b) in DONE, where R212 lets WRLEN change LEN, is `Engine.Planned` (log 9). -/
structure Engine.Inv (c : Config) (e : Engine) : Prop where
  /-- Message memory is in canonical form. -/
  msg_canonical : Memory.wf e.msg
  /-- No byte beyond MSG_CAPACITY is written (20_memory.md R61). -/
  msg_in_range : ∀ a b, Memory.read e.msg a = some b → a < c.msgCapacity
  /-- `ERRCODE = 1` exactly when PHASE = ERROR (R33). -/
  errcode_iff : e.errcode = .inputTooLarge ↔ e.phase = .error
  /-- R193 (e). -/
  t_range : tInRange e.phase e.t = true
  /-- R193 (a). -/
  len_checked : e.phase.between 2 9 → e.len.toNat < 2 ^ 61
  /-- R193 (b), with R41: PLAN has written PLEN. -/
  plen_planned : e.phase.between 3 9 → e.plen.written = true ∧ e.plen.value.toNat = padLen e.len.toNat
  /-- R193 (b), with R41: PLAN has written OFF. -/
  off_aligned : e.phase.between 3 10 → e.off.written = true ∧ e.off.value.toNat % 64 = 0
  /-- HINIT comes before the first block (R191). -/
  off_start : e.phase = .hinit → e.off.value = 0
  /-- R193 (c). -/
  off_room : e.phase.between 4 9 → e.off.value.toNat + 64 ≤ e.plen.value.toNat
  /-- R193 (d). -/
  done_off : e.phase = .done → e.plen.written = true ∧ e.off.value = e.plen.value
  /-- The legal values of PLEN (R28). -/
  plen_legal : e.phase.between 3 10 →
    e.plen.value.toNat % 64 = 0 ∧ 64 ≤ e.plen.value.toNat ∧ e.plen.value.toNat ≤ 2 ^ 61 + 64
  /-- R41: HINIT writes H before RINIT, HACC or RDDIG reads it. -/
  h_written : e.phase.between 4 10 → ∀ i : Fin 8, e.h[i].written = true
  /-- R41: PADBLK writes BLK before WLOAD reads it. -/
  blk_written : e.phase.between 5 9 → ∀ j : Fin 64, e.blk[j].written = true
  /-- R41: W below T is written while the schedule is built. -/
  w_prefix_written : e.phase.between 5 6 → ∀ i : Fin 64, i.val < e.t.toNat → e.w[i].written = true
  /-- R41: all of W is written before ROUND reads it. -/
  w_written : e.phase.between 7 9 → ∀ i : Fin 64, e.w[i].written = true
  /-- R41: RINIT writes R before ROUND or HACC reads it. -/
  r_written : e.phase.between 8 9 → ∀ i : Fin 8, e.r[i].written = true

/-- R193 (b) as it stands, DONE included: PLEN is the padded length of LEN and OFF a multiple of 64. In HINIT..HACC it
follows from `Engine.Inv`; in DONE it holds from the end of the call until a WRLEN is accepted there (R212; log 9). -/
def Engine.Planned (e : Engine) : Prop :=
  e.phase.between 3 10 → e.plen.value.toNat = padLen e.len.toNat ∧ e.off.value.toNat % 64 = 0

/-- The invariant of the whole machine. -/
def State.Inv (s : State) : Prop := Engine.Inv s.config s.eng

/-- LEN and MSG hold the message `m` (44_sequencer.md R200): all of it written, and in range. -/
structure Engine.Loaded (c : Config) (m : List Byte) (e : Engine) : Prop where
  len_eq : e.len.toNat = m.length
  in_range : m.length ≤ c.msgCapacity
  bytes : ∀ i b, m[i]? = some b → Memory.read e.msg i = some b

/-- The index of the block at OFF. -/
def Engine.blockIndex (e : Engine) : Nat := e.off.value.toNat / 64

/-- What the datapath holds at each point of the call that hashes `m` (44_sequencer.md R193 (f), taken down to each
micro-operation): H is the hash after the blocks before OFF, BLK the block at OFF, W below T its schedule, R the registers
after T rounds; in DONE, H is the hash of all blocks and PLEN the padded length of `m` (R193 b). In a rest phase other than DONE nothing is said. -/
def Engine.Hashing (c : Config) (m : List Byte) (e : Engine) : Prop :=
  let hk := hashAfter m e.blockIndex
  let bk := blockOf (pad m) e.blockIndex
  match e.phase with
  | .idle | .error => True
  | .chklen | .plan | .hinit => e.Loaded c m
  | .padblk => e.Loaded c m ∧ values e.h = hk
  | .wload | .wexp =>
    e.Loaded c m ∧ values e.h = hk ∧ values e.blk = bk ∧
      ∀ i : Fin 64, i.val < e.t.toNat → e.w[i].value = (schedule bk)[i]
  | .rinit => e.Loaded c m ∧ values e.h = hk ∧ values e.w = schedule bk
  | .round =>
    e.Loaded c m ∧ values e.h = hk ∧ values e.w = schedule bk ∧
      values e.r = roundsTo hk (schedule bk) e.t.toNat (by have := e.t.isLt; omega)
  | .hacc => e.Loaded c m ∧ values e.h = hk ∧ values e.r = rounds hk (schedule bk)
  | .done => values e.h = hashAfter m (blockCount m.length) ∧ e.plen.value.toNat = padLen m.length

/-- The steps of a call on a message of `l` bytes, from the accepted START to DONE (44_sequencer.md R194). -/
def callSteps (l : Nat) : Nat := 3 + 131 * blockCount l

end Sys2Proof.Machine
end

