-- ==== Sys2Proof/Certificates/Slice0/Obligations.lean ====
section
/-! DEFINITION. The statements about the model, each the formal reading of a rule of spec/. -/

open Sys2Proof Sys2Proof.Machine

/-! ### Encodings (30_encoding.md) -/

/-- One word of every row, written out from R101 and R104 (95_test_vectors.md V18), decodes to its instruction. -/
def Obligations.TableWordsDecode : Prop :=
  decodeTableWord 80 0x01000000000000000263 = some (.wrmsg 2 0x63) ∧
  decodeTableWord 80 0x021fffffffffffffff00 = some (.wrlen 0x1fffffffffffffff) ∧
  decodeTableWord 80 0x03000000000000000000 = some .start ∧
  decodeTableWord 80 0x04000000000000000000 = some .rdstat ∧
  decodeTableWord 80 0x05000000000000001f00 = some (.rddig 31) ∧
  decodeTableWord 8 1 = some .chklen ∧ decodeTableWord 8 2 = some .plan ∧ decodeTableWord 8 3 = some .hinit ∧
  decodeTableWord 8 4 = some .padblk ∧ decodeTableWord 8 5 = some .wload ∧ decodeTableWord 8 6 = some .wexp ∧
  decodeTableWord 8 7 = some .rinit ∧ decodeTableWord 8 8 = some .round ∧ decodeTableWord 8 9 = some .hacc

/-- Decoding an encoded well-formed instruction gives it back, operands included (R101, R104). -/
def Obligations.DecodeEncodeGivesBack : Prop :=
  ∀ i : Instr, i.wf = true → decode (encode i) = .ok i

/-- A code that decodes has one spelling: the instruction is well-formed and its encoding is that code (R101, R104,
R110). -/
def Obligations.EncodeDecodeGivesBack : Prop :=
  ∀ (c : Code) (i : Instr), decode c = .ok i → i.wf = true ∧ encode i = c

/-- R101: a word selects a row when `(w and mask) = match`, and at most one; the decoder reads from a word an instruction
of the row it selects, and from a word that selects no row it reads none. -/
def Obligations.CommandWordSelectsItsRow : Prop :=
  ∀ w : CommandWord,
    (∀ i, decodeCommand w = .ok i → ∃ r ∈ commandRows, r.selects w = true ∧ r.mnemonic = i.mnemonic) ∧
    (∀ r ∈ commandRows, r.selects w = true → ∃ i, decodeCommand w = .ok i ∧ i.mnemonic = r.mnemonic) ∧
    (∀ r ∈ commandRows, ∀ q ∈ commandRows, r.selects w = true → q.selects w = true → r = q)

/-- R104: exactly the PHASE codes 1..9 name a micro-operation; IDLE, DONE, ERROR perform none and 12..15 are reserved.
-/
def Obligations.RestAndReservedCodesNameNoOperation : Prop :=
  ∀ c : MicroCode, ((∃ i, decodeMicro c = .ok i) ↔ 1 ≤ c.toNat ∧ c.toNat ≤ 9) ∧
    (decodeMicro c = .error .restPhase ↔ c = 0 ∨ c = 10 ∨ c = 11) ∧
    (decodeMicro c = .error .reservedPhase ↔ 12 ≤ c.toNat)

/-- R100: ten bytes, most significant first: byte 0 is op, bytes 1..8 are A big-endian, byte 9 is B; decoding the ten
bytes is decoding the word, and the bytes after them are left over. -/
def Obligations.CommandWordCrossesAsTenBytes : Prop :=
  ∀ (w : CommandWord) (rest : List Byte),
    (commandBytes w).length = 10 ∧
    (commandBytes w)[0]? = some (opField w) ∧ (commandBytes w)[9]? = some (bField w) ∧
    (∀ k : Fin 8, (commandBytes w)[k.val + 1]? = some (be64byte (aField w) k.val)) ∧
    decodeBytes (commandBytes w ++ rest) = (decodeCommand w).map fun i => (i, rest)

/-! ### The step (20_memory.md R75, 44_sequencer.md R190, R192, 45_host_commands.md R210) -/

/-- A step runs the decoded instruction: of the command word that is next on the agenda, or, on the sequencer's turn,
of the code in PHASE. The turn is taken off the agenda; with no turn pending the sequencer has it (log 3). -/
def Obligations.StepRunsTheDecodedInstruction : Prop :=
  ∀ (s : State) (i : Instr) (rest : List Turn),
    (∀ w, s.agenda = .command w :: rest → decodeCommand w = .ok i → step s = exec i { s with agenda := rest }) ∧
    (s.agenda = .seq :: rest → s.eng.busy = true → s.eng.fault = .noFault → decodeMicro s.eng.phase.code = .ok i →
      step s = exec i { s with agenda := rest }) ∧
    (s.agenda = [] → s.eng.busy = true → s.eng.fault = .noFault → decodeMicro s.eng.phase.code = .ok i →
      step s = exec i s)

/-- R108, R233, in the order of R210: a word that selects no row of the table raises IllegalCommand and changes
nothing else; on a halted engine it changes nothing; either way the response is Nak. -/
def Obligations.IllegalWordRaisesIllegalCommand : Prop :=
  ∀ (s : State) (w : CommandWord) (rest : List Turn),
    s.agenda = .command w :: rest → (∀ r ∈ commandRows, w &&& r.mask ≠ r.pattern) →
    (s.eng.fault = .noFault → step s = .next { s with
      eng := { s.eng with fault := .illegalCommand }, agenda := rest, replies := s.replies ++ [.nak] }) ∧
    (s.eng.fault ≠ .noFault → step s = .next { s with agenda := rest, replies := s.replies ++ [.nak] })

/-- R190: in IDLE, DONE and ERROR the sequencer's turn changes nothing. -/
def Obligations.RestPhasesHaveNoStep : Prop :=
  ∀ s : State, s.eng.phase = .idle ∨ s.eng.phase = .done ∨ s.eng.phase = .error →
    (s.agenda = [] → step s = .next s) ∧
    (∀ rest, s.agenda = .seq :: rest → step s = .next { s with agenda := rest })

/-- R192: SEQ has a step exactly when `1 <= PHASE <= 9` and `FAULT = 0`: with no host action pending (log 3) and the
invariant, the state moves exactly then. -/
def Obligations.SequencerStepsExactlyWhenEnabled : Prop :=
  ∀ s : State, s.Inv → s.agenda = [] →
    ∃ t, step s = .next t ∧
      (t ≠ s ↔ 1 ≤ s.eng.phase.code.toNat ∧ s.eng.phase.code.toNat ≤ 9 ∧ s.eng.fault = .noFault)

/-- R238: while FAULT is not 0 the sequencer's turn, given or by default (log 3), changes nothing, and every command
but a well-formed RDSTAT changes nothing of the engine and is answered Nak; RDSTAT returns STATUS. FAULT keeps the
first code. -/
def Obligations.FaultedEngineIsHalted : Prop :=
  ∀ s : State, s.eng.fault ≠ .noFault →
    (s.agenda = [] → step s = .next s) ∧
    (∀ rest, s.agenda = .seq :: rest → step s = .next { s with agenda := rest }) ∧
    (∀ w rest, s.agenda = .command w :: rest → decodeCommand w ≠ .ok .rdstat →
      step s = .next { s with agenda := rest, replies := s.replies ++ [.nak] }) ∧
    (∀ w rest, s.agenda = .command w :: rest → decodeCommand w = .ok .rdstat →
      step s = .next { s with agenda := rest, replies := s.replies ++ [.data32 s.eng.status] })

/-- R260: the reset event, in any phase, faulted or not. The host's later actions, the responses it has received and
the instance's parameters stay (log 5). -/
def Obligations.ResetEventIsTotal : Prop :=
  ∀ (s : State) (rest : List Turn), s.agenda = .reset :: rest →
    ∃ t, step s = .next t ∧ t.config = s.config ∧ t.agenda = rest ∧ t.replies = s.replies ∧
      t.eng.phase = .idle ∧ t.eng.t = 0 ∧ t.eng.errcode = .noError ∧ t.eng.fault = .noFault ∧ t.eng.len = 0 ∧
      t.eng.status = 0 ∧
      (∀ i : Fin 8, t.eng.r[i].written = false ∧ t.eng.h[i].written = false) ∧
      (∀ j : Fin 64, t.eng.w[j].written = false ∧ t.eng.blk[j].written = false) ∧
      t.eng.plen.written = false ∧ t.eng.off.written = false ∧ ∀ a, Memory.read t.eng.msg a = none

/-- The reset values of R43: the control registers 0, STATUS and the flags 0, everything else unwritten, and the
sequencer idle: with no host action pending (log 3) a step changes nothing. -/
def Obligations.ResetLeavesTheSpecsValues : Prop :=
  State.reset.eng.phase = .idle ∧ State.reset.eng.t = 0 ∧ State.reset.eng.errcode = .noError ∧
  State.reset.eng.fault = .noFault ∧ State.reset.eng.len = 0 ∧ State.reset.eng.status = 0 ∧
  State.reset.eng.busy = false ∧ State.reset.eng.done = false ∧ State.reset.eng.err = false ∧
  State.reset.eng.faulted = false ∧
  (∀ i : Fin 8, State.reset.eng.r[i].written = false ∧ State.reset.eng.h[i].written = false) ∧
  (∀ j : Fin 64, State.reset.eng.w[j].written = false ∧ State.reset.eng.blk[j].written = false) ∧
  State.reset.eng.plen.written = false ∧ State.reset.eng.off.written = false ∧
  (∀ a, Memory.read State.reset.eng.msg a = none) ∧ step State.reset = .next State.reset

/-! ### Host commands (45_host_commands.md) -/

/-- R211 with the priority of R239: BusyAccess, then MsgRange, then the byte is written and the command acknowledged.
Every other byte of MSG and every other register stays. -/
def Obligations.WrmsgWritesOneByte : Prop :=
  ∀ (s : State) (addr : DWord) (data : Byte), s.eng.fault = .noFault →
    (s.eng.busy = true → exec (.wrmsg addr data) s = .next { s with
      eng := { s.eng with fault := .busyAccess }, replies := s.replies ++ [.nak] }) ∧
    (s.eng.busy = false → s.config.msgCapacity ≤ addr.toNat → exec (.wrmsg addr data) s = .next { s with
      eng := { s.eng with fault := .msgRange }, replies := s.replies ++ [.nak] }) ∧
    (s.eng.busy = false → addr.toNat < s.config.msgCapacity →
      ∃ m : Memory, exec (.wrmsg addr data) s = .next { s with
          eng := { s.eng with msg := m }, replies := s.replies ++ [.ack] } ∧
        Memory.read m addr.toNat = some data ∧
        ∀ a, a ≠ addr.toNat → Memory.read m a = Memory.read s.eng.msg a)

/-- R212: outside a call every u64 is accepted and only LEN changes; during a call BusyAccess. -/
def Obligations.WrlenSetsTheLength : Prop :=
  ∀ (s : State) (value : DWord), s.eng.fault = .noFault →
    (s.eng.busy = true → exec (.wrlen value) s = .next { s with
      eng := { s.eng with fault := .busyAccess }, replies := s.replies ++ [.nak] }) ∧
    (s.eng.busy = false → exec (.wrlen value) s = .next { s with
      eng := { s.eng with len := value }, replies := s.replies ++ [.ack] })

/-- R213: outside a call START clears ERRCODE and T and goes to CHKLEN, and touches nothing else; during a call
BusyAccess. -/
def Obligations.StartBeginsACall : Prop :=
  ∀ s : State, s.eng.fault = .noFault →
    (s.eng.busy = true → exec .start s = .next { s with
      eng := { s.eng with fault := .busyAccess }, replies := s.replies ++ [.nak] }) ∧
    (s.eng.busy = false → exec .start s = .next { s with
      eng := { s.eng with errcode := .noError, t := 0, phase := .chklen }, replies := s.replies ++ [.ack] })

/-- R214: RDSTAT responds STATUS in every phase and whatever FAULT holds, and changes no register and no byte. -/
def Obligations.RdstatReturnsStatus : Prop :=
  ∀ s : State, exec .rdstat s = .next { s with replies := s.replies ++ [.data32 s.eng.status] }

/-- R215: in DONE, `RDDIG 4k+j` responds byte j of H[k], counted from the most significant, and changes nothing; in
any other phase DigestNotValid; an index above 31 is an illegal word in every phase. -/
def Obligations.RddigReturnsADigestByte : Prop :=
  ∀ s : State, s.eng.fault = .noFault →
    (s.eng.phase = .done → ∀ (k : Fin 8) (j : Fin 4), ∃ b : Byte,
      exec (.rddig (BitVec.ofNat 64 (4 * k.val + j.val))) s = .next { s with replies := s.replies ++ [.data8 b] } ∧
      b.toNat = s.eng.h[k].value.toNat / 2 ^ (24 - 8 * j.val) % 256) ∧
    (s.eng.phase ≠ .done → ∀ idx : DWord, idx.toNat ≤ 31 → exec (.rddig idx) s = .next { s with
      eng := { s.eng with fault := .digestNotValid }, replies := s.replies ++ [.nak] }) ∧
    (∀ idx : DWord, 31 < idx.toNat → exec (.rddig idx) s = .next { s with
      eng := { s.eng with fault := .illegalCommand }, replies := s.replies ++ [.nak] })

/-- R210 (3): while FAULT is not 0, WRMSG, WRLEN, START and RDDIG change nothing and are answered Nak. -/
def Obligations.HaltedCommandsAnswerNak : Prop :=
  ∀ (s : State) (i : Instr), s.eng.fault ≠ .noFault →
    (∃ a d, i = .wrmsg a d) ∨ (∃ v, i = .wrlen v) ∨ i = .start ∨ (∃ x, i = .rddig x) →
    exec i s = .next { s with replies := s.replies ++ [.nak] }

/-- R102: every command, legal or not, returns exactly one response, Ack, Data32, Data8 or Nak by its kind. The list
in which the responses are kept is the model's, and so is that the reset event and the sequencer leave it as it is
(log 5, DESIGN CHOICE). -/
def Obligations.EveryCommandReturnsOneResponse : Prop :=
  ∀ s : State,
    (∀ w rest, s.agenda = .command w :: rest →
      ∃ t r, step s = .next t ∧ t.replies = s.replies ++ [r] ∧
        (r = .ack → ∃ i, decodeCommand w = .ok i ∧ ((∃ a d, i = .wrmsg a d) ∨ (∃ v, i = .wrlen v) ∨ i = .start)) ∧
        ((∃ v, r = .data32 v) ↔ decodeCommand w = .ok .rdstat) ∧
        ((∃ b, r = .data8 b) → ∃ x, decodeCommand w = .ok (.rddig x)) ∧
        (r = .nak ↔ t.eng.fault ≠ .noFault ∧ decodeCommand w ≠ .ok .rdstat)) ∧
    (∀ t, (∀ w rest, s.agenda ≠ .command w :: rest) → step s = .next t → t.replies = s.replies)

/-- The layout of STATUS (R103). -/
def Obligations.StatusHasItsLayout : Prop :=
  ∀ e : Engine,
    e.status.extractLsb' 0 4 = e.phase.code ∧
    e.status.getLsbD 4 = decide (1 ≤ e.phase.code.toNat ∧ e.phase.code.toNat ≤ 9) ∧
    e.status.getLsbD 5 = decide (e.phase.code.toNat = 10) ∧
    e.status.getLsbD 6 = decide (e.phase.code.toNat = 11) ∧
    e.status.getLsbD 7 = decide (e.fault ≠ .noFault) ∧
    e.status.extractLsb' 8 8 = e.errcode.code ∧
    e.status.extractLsb' 16 8 = e.fault.code ∧
    e.status.extractLsb' 24 6 = e.t ∧
    e.status.extractLsb' 30 2 = 0

/-- R36: at most one of BUSY, DONE, ERR is 1, and all three are 0 only in IDLE. -/
def Obligations.StatusFlagsExcludeEachOther : Prop :=
  ∀ e : Engine,
    ¬ (e.busy = true ∧ e.done = true) ∧ ¬ (e.busy = true ∧ e.err = true) ∧ ¬ (e.done = true ∧ e.err = true) ∧
    (e.busy = false ∧ e.done = false ∧ e.err = false ↔ e.phase = .idle) ∧
    (e.faulted = true ↔ e.fault ≠ .noFault)

/-- R217 (4) and (5): what a poll tells the host: void exactly when FAULT is not 0, and else running, InputTooLarge,
digest or idle by the phase. R201: a call has ended exactly when a poll tells InputTooLarge or digest. -/
def Obligations.PollTellsTheOutcome : Prop :=
  ∀ e : Engine,
    (readPoll e.status = .void ↔ e.fault ≠ .noFault) ∧
    (e.fault = .noFault →
      (readPoll e.status = .running ↔ e.busy = true) ∧
      (readPoll e.status = .inputTooLarge ↔ e.phase = .error) ∧
      (readPoll e.status = .digest ↔ e.phase = .done) ∧
      (readPoll e.status = .idle ↔ e.phase = .idle)) ∧
    (e.callEnded ↔ readPoll e.status = .inputTooLarge ∨ readPoll e.status = .digest)

/-! ### Padding unit (40_padding_unit.md) -/

/-- R121, R230: the test is on LEN; below 2^61 only PHASE changes, to PLAN; from 2^61 on ERRCODE and PHASE change and
nothing else. -/
def Obligations.ChklenTestsTheLength : Prop :=
  ∀ s : State,
    (s.eng.len.toNat < 2 ^ 61 → exec .chklen s = .next { s with eng := { s.eng with phase := .plan } }) ∧
    (2 ^ 61 ≤ s.eng.len.toNat → exec .chklen s = .next { s with
      eng := { s.eng with errcode := .inputTooLarge, phase := .error } })

/-- R122: PLEN takes `ceil((L + 9) / 64) * 64`, exact in 64 bits, OFF takes 0, PHASE goes to HINIT. -/
def Obligations.PlanComputesThePaddedLength : Prop :=
  ∀ s : State, s.eng.len.toNat < 2 ^ 61 →
    ∃ p : DWord, p.toNat = (s.eng.len.toNat + 9 + 63) / 64 * 64 ∧
      exec .plan s = .next { s with eng := { s.eng with plen := ⟨p, true⟩, off := ⟨0, true⟩, phase := .hinit } }

/-- R123 (a) to (f): the arithmetic of the padded length. -/
def Obligations.PaddedLengthArithmetic : Prop :=
  ∀ l : Nat, l < 2 ^ 61 →
    padLen l = 64 * ((l + 72) / 64) ∧ padLen l % 64 = 0 ∧
    l + 9 ≤ padLen l ∧ padLen l ≤ l + 72 ∧
    padLen l - l - 9 ≤ 63 ∧ padLen l - l - 9 = (55 + 64 - l % 64) % 64 ∧
    (l % 64 ≤ 55 → padLen l / 64 = l / 64 + 1) ∧ (56 ≤ l % 64 → padLen l / 64 = l / 64 + 2) ∧
    (padLen l - 8) % 64 = 56 ∧ 1 ≤ padLen l / 64

/-- R127: the block counts at the boundary lengths. -/
def Obligations.BoundaryBlockCounts : Prop :=
  blockCount 0 = 1 ∧ blockCount 55 = 1 ∧ blockCount 56 = 2 ∧ blockCount 63 = 2 ∧ blockCount 64 = 2 ∧
    blockCount 119 = 2 ∧ blockCount 120 = 3

/-- R124, R125: where the 64 bytes are defined and those below LEN are written and in range, PADBLK fills BLK with the
message, the marker, zeros and the big-endian bit length, sets T to 0 and goes to WLOAD; nothing else changes. -/
def Obligations.PadblkFillsTheBlock : Prop :=
  ∀ s : State,
    s.eng.len.toNat + 9 ≤ s.eng.plen.value.toNat → s.eng.off.value.toNat + 64 ≤ s.eng.plen.value.toNat →
    (∀ p, s.eng.off.value.toNat ≤ p → p < s.eng.off.value.toNat + 64 → p < s.eng.len.toNat →
      p < s.config.msgCapacity ∧ Memory.read s.eng.msg p ≠ none) →
    ∃ b : Vector (Slot 8) 64,
      exec .padblk s = .next { s with eng := { s.eng with blk := b, t := 0, phase := .wload } } ∧
      ∀ j : Fin 64,
        let p := s.eng.off.value.toNat + j.val
        b[j].written = true ∧
        (p < s.eng.len.toNat → Memory.read s.eng.msg p = some b[j].value) ∧
        (p = s.eng.len.toNat → b[j].value = 0x80) ∧
        (s.eng.len.toNat < p → p < s.eng.plen.value.toNat - 8 → b[j].value = 0) ∧
        (s.eng.plen.value.toNat - 8 ≤ p → b[j].value.toNat =
          s.eng.len.toNat * 8 % 2 ^ 64 / 2 ^ (8 * (s.eng.plen.value.toNat - 1 - p)) % 256)

/-- R125, R239: the lowest byte below LEN that is out of range or unwritten decides, range before written-ness; the
step writes FAULT and nothing else. -/
def Obligations.PadblkFaultsAtTheFirstBadByte : Prop :=
  ∀ (s : State) (j : Nat),
    s.eng.fault = .noFault →
    s.eng.len.toNat + 9 ≤ s.eng.plen.value.toNat → s.eng.off.value.toNat + 64 ≤ s.eng.plen.value.toNat →
    j < 64 → s.eng.off.value.toNat + j < s.eng.len.toNat →
    (∀ i, i < j → s.eng.off.value.toNat + i < s.config.msgCapacity ∧
      Memory.read s.eng.msg (s.eng.off.value.toNat + i) ≠ none) →
    (s.config.msgCapacity ≤ s.eng.off.value.toNat + j →
      exec .padblk s = .next { s with eng := { s.eng with fault := .msgRange } }) ∧
    (s.eng.off.value.toNat + j < s.config.msgCapacity →
      Memory.read s.eng.msg (s.eng.off.value.toNat + j) = none →
      exec .padblk s = .next { s with eng := { s.eng with fault := .msgUnwritten } })

/-- R126, 90_conflicts.md C4: the two procedures of the document build the same buffer, whose length is the padded
length, a positive multiple of 64. -/
def Obligations.PaddingProceduresAgree : Prop :=
  ∀ m : List Byte, m.length < 2 ^ 61 →
    pad m = padAppend m ∧ (pad m).length = padLen m.length ∧ (pad m).length % 64 = 0 ∧ 0 < (pad m).length

/-- R126: with the message loaded and PLEN planned, byte p of PAD as PADBLK reads it is byte p of the whole buffer. -/
def Obligations.PadIsTheWholeBuffer : Prop :=
  ∀ (c : Config) (m : List Byte) (e : Engine) (p : Nat),
    e.Loaded c m → m.length < 2 ^ 61 → e.plen.value.toNat = padLen m.length → p < padLen m.length →
    ∃ b, (pad m)[p]? = some b ∧ padByte c e p = .ok b

/-! ### Schedule expander (41_schedule_expander.md) -/

/-- R144: W[n] takes the big-endian word at BLK[4n]; at T = 15 the expander goes on to WEXP with T = 16. -/
def Obligations.WloadLoadsABigEndianWord : Prop :=
  ∀ (s : State) (n : Nat) (_ : n < 16), s.eng.t.toNat = n →
    ∃ v : Word,
      v.toNat = s.eng.blk[4 * n].value.toNat * 2 ^ 24 + s.eng.blk[4 * n + 1].value.toNat * 2 ^ 16 +
        s.eng.blk[4 * n + 2].value.toNat * 2 ^ 8 + s.eng.blk[4 * n + 3].value.toNat ∧
      exec .wload s = .next { s with eng := { s.eng with
        w := s.eng.w.set n ⟨v, true⟩
        t := if n = 15 then 16 else BitVec.ofNat 6 (n + 1)
        phase := if n = 15 then .wexp else s.eng.phase } }

/-- R145: W[n+16] takes the sum of the four terms modulo 2^32; at T = 63 RINIT follows with T = 0. -/
def Obligations.WexpExtendsTheSchedule : Prop :=
  ∀ (s : State) (n : Nat) (_ : n < 48), s.eng.t.toNat = n + 16 →
    ∃ v : Word,
      v.toNat = (s.eng.w[n].value.toNat + (ssig0 s.eng.w[n + 1].value).toNat + s.eng.w[n + 9].value.toNat +
        (ssig1 s.eng.w[n + 14].value).toNat) % 2 ^ 32 ∧
      exec .wexp s = .next { s with eng := { s.eng with
        w := s.eng.w.set (n + 16) ⟨v, true⟩
        t := if n = 47 then 0 else BitVec.ofNat 6 (n + 17)
        phase := if n = 47 then .rinit else s.eng.phase } }

/-- R142, R143: the two schedule functions bit by bit, their corner cases, and their linearity over xor. -/
def Obligations.ScheduleSigmasBitByBit : Prop :=
  (∀ (x : Word) (i : Nat), i < 32 →
    (ssig0 x).getLsbD i =
      (x.getLsbD ((i + 7) % 32) ^^ x.getLsbD ((i + 18) % 32) ^^ (decide (i ≤ 28) && x.getLsbD (i + 3))) ∧
    (ssig1 x).getLsbD i =
      (x.getLsbD ((i + 17) % 32) ^^ x.getLsbD ((i + 19) % 32) ^^ (decide (i ≤ 21) && x.getLsbD (i + 10)))) ∧
  (ssig0 0 = 0 ∧ ssig0 0xFFFFFFFF = 0x1FFFFFFF ∧ ssig0 1 = 0x02004000 ∧ ssig0 0x80000000 = 0x11002000) ∧
  (ssig1 0 = 0 ∧ ssig1 0xFFFFFFFF = 0x003FFFFF ∧ ssig1 1 = 0x0000A000 ∧ ssig1 0x80000000 = 0x00205000) ∧
  ∀ x y : Word, ssig0 (x ^^^ y) = ssig0 x ^^^ ssig0 y ∧ ssig1 (x ^^^ y) = ssig1 x ^^^ ssig1 y

/-! ### Compression pipeline (42_compression_rounds.md) -/

/-- R157 to R160: Σ0, Σ1, Ch and Maj bit by bit. -/
def Obligations.RoundFunctionsBitByBit : Prop :=
  ∀ (x y z : Word) (i : Nat), i < 32 →
    (bsig0 x).getLsbD i =
      (x.getLsbD ((i + 2) % 32) ^^ x.getLsbD ((i + 13) % 32) ^^ x.getLsbD ((i + 22) % 32)) ∧
    (bsig1 x).getLsbD i =
      (x.getLsbD ((i + 6) % 32) ^^ x.getLsbD ((i + 11) % 32) ^^ x.getLsbD ((i + 25) % 32)) ∧
    (ch x y z).getLsbD i = (if x.getLsbD i then y.getLsbD i else z.getLsbD i) ∧
    (maj x y z).getLsbD i =
      decide (2 ≤ (x.getLsbD i).toNat + (y.getLsbD i).toNat + (z.getLsbD i).toNat)

/-- R161: R takes H, T takes 0, PHASE goes to ROUND; H is not changed, nor anything else. -/
def Obligations.RinitCopiesTheHash : Prop :=
  ∀ s : State, ∃ r : Vector (Slot 32) 8,
    (∀ i : Fin 8, r[i] = ⟨s.eng.h[i].value, true⟩) ∧
    exec .rinit s = .next { s with eng := { s.eng with r := r, t := 0, phase := .round } }

/-- R162: all eight writes use the old values; a and e take sums modulo 2^32; at T = 63 HACC follows with T = 0. -/
def Obligations.RoundUpdatesAllRegistersAtOnce : Prop :=
  ∀ (s : State) (n : Nat) (_ : n < 64), s.eng.t.toNat = n →
    let R := fun k : Fin 8 => s.eng.r[k].value
    let T1 := (R 7).toNat + (bsig1 (R 4)).toNat + (ch (R 4) (R 5) (R 6)).toNat + K[n].toNat +
      s.eng.w[n].value.toNat
    let T2 := (bsig0 (R 0)).toNat + (maj (R 0) (R 1) (R 2)).toNat
    ∃ a e : Word, a.toNat = (T1 + T2) % 2 ^ 32 ∧ e.toNat = ((R 3).toNat + T1) % 2 ^ 32 ∧
      exec .round s = .next { s with eng := { s.eng with
        r := #v[⟨a, true⟩, ⟨R 0, true⟩, ⟨R 1, true⟩, ⟨R 2, true⟩, ⟨e, true⟩, ⟨R 4, true⟩, ⟨R 5, true⟩, ⟨R 6, true⟩]
        t := if n = 63 then 0 else BitVec.ofNat 6 (n + 1)
        phase := if n = 63 then .hacc else s.eng.phase } }

/-! ### Hash accumulator (43_hash_accumulator.md) -/

/-- R178: H takes the initial hash words whatever it held, PHASE goes to PADBLK, and nothing else changes. The eight
values are general knowledge of the spec (R177, log 10). -/
def Obligations.HinitLoadsTheInitialHash : Prop :=
  ∀ s : State, exec .hinit s = .next { s with eng := { s.eng with
    h := #v[⟨0x6a09e667, true⟩, ⟨0xbb67ae85, true⟩, ⟨0x3c6ef372, true⟩, ⟨0xa54ff53a, true⟩,
            ⟨0x510e527f, true⟩, ⟨0x9b05688c, true⟩, ⟨0x1f83d9ab, true⟩, ⟨0x5be0cd19, true⟩]
    phase := .padblk } }

/-- R179: eight independent additions modulo 2^32; OFF advances by 64 and is compared with PLEN; R is not changed. -/
def Obligations.HaccAddsLanesAndAdvances : Prop :=
  ∀ s : State, s.eng.off.value.toNat + 64 < 2 ^ 64 →
    ∃ (h : Vector (Slot 32) 8) (o : DWord),
      (∀ i : Fin 8, h[i].written = true ∧
        h[i].value.toNat = (s.eng.h[i].value.toNat + s.eng.r[i].value.toNat) % 2 ^ 32) ∧
      o.toNat = s.eng.off.value.toNat + 64 ∧
      exec .hacc s = .next { s with eng := { s.eng with
        h := h, off := ⟨o, true⟩, phase := if o.toNat < s.eng.plen.value.toNat then .padblk else .done } }

/-- The checksums of the constant tables (95_test_vectors.md V8 for R176, R177), and their first and last entries. The
tables are general knowledge of the spec, not of its source (log 10). -/
def Obligations.ConstantTableChecksums : Prop :=
  K.toList.foldl (· + ·) 0 = 0x941d1755 ∧ K.toList.foldl (· ^^^ ·) 0 = 0x95c49cf5 ∧
  IV.toList.foldl (· + ·) 0 = 0x6ea8df67 ∧ IV.toList.foldl (· ^^^ ·) 0 = 0xc62760eb ∧
  K[0] = 0x428a2f98 ∧ K[63] = 0xc67178f2 ∧ IV[0] = 0x6a09e667 ∧ IV[7] = 0x5be0cd19

/-- R181: two digits a byte, high nibble first, bytes in index order, the digit of n < 16 being the n-th character of
0123456789abcdef. That alphabet is general knowledge of the spec, not of its source (R181, G3; log 21). -/
def Obligations.HexRendersHighNibbleFirst : Prop :=
  (∀ n, n < 16 → "0123456789abcdef".toList[n]? = some (hexDigit n)) ∧
  ∀ d : List Byte, (hex64 d).length = 2 * d.length ∧
    ∀ (i : Nat) (b : Byte), d[i]? = some b →
      (hex64 d)[2 * i]? = some (hexDigit (b.toNat / 16)) ∧ (hex64 d)[2 * i + 1]? = some (hexDigit (b.toNat % 16))

/-! ### Positions outside the spec -/

/-- The model stops by name where a micro-operation's rule gives no effect (log 7, DEDUCED; R144, R145, R122, R63,
R156 exclude these positions). -/
def Obligations.PositionsOutsideTheSpecStop : Prop :=
  ∀ s : State,
    (15 < s.eng.t.toNat → exec .wload s = .fault .scheduleIndexOutOfRange) ∧
    (s.eng.t.toNat < 16 → exec .wexp s = .fault .scheduleIndexOutOfRange) ∧
    (2 ^ 61 ≤ s.eng.len.toNat → exec .plan s = .fault .lengthNotChecked) ∧
    (s.eng.plen.value.toNat < s.eng.len.toNat + 9 ∨ s.eng.plen.value.toNat < s.eng.off.value.toNat + 64 →
      exec .padblk s = .fault .paddedByteUndefined) ∧
    (2 ^ 64 ≤ s.eng.off.value.toNat + 64 → exec .hacc s = .fault .offsetOverflow)

/-! ### The whole machine -/

/-- The "written by" column of R20, and R42: which instruction may change which piece of state. -/
def Obligations.OnlyItsWritersChangeAState : Prop :=
  ∀ (i : Instr) (s t : State), exec i s = .next t →
    t.config = s.config ∧ t.agenda = s.agenda ∧
    (t.eng.r ≠ s.eng.r → i = .rinit ∨ i = .round) ∧
    (t.eng.h ≠ s.eng.h → i = .hinit ∨ i = .hacc) ∧
    (t.eng.w ≠ s.eng.w → i = .wload ∨ i = .wexp) ∧
    (t.eng.blk ≠ s.eng.blk → i = .padblk) ∧
    (t.eng.len ≠ s.eng.len → ∃ v, i = .wrlen v) ∧
    (t.eng.plen ≠ s.eng.plen → i = .plan) ∧
    (t.eng.off ≠ s.eng.off → i = .plan ∨ i = .hacc) ∧
    (t.eng.phase ≠ s.eng.phase →
      i = .start ∨ i = .chklen ∨ i = .plan ∨ i = .hinit ∨ i = .padblk ∨ i = .wload ∨ i = .wexp ∨ i = .rinit ∨
        i = .round ∨ i = .hacc) ∧
    (t.eng.t ≠ s.eng.t → i = .start ∨ i = .padblk ∨ i = .wload ∨ i = .wexp ∨ i = .rinit ∨ i = .round) ∧
    (t.eng.errcode ≠ s.eng.errcode → i = .start ∨ i = .chklen) ∧
    (t.eng.fault ≠ s.eng.fault → s.eng.fault = .noFault ∧
      ((∃ a d, i = .wrmsg a d) ∨ (∃ v, i = .wrlen v) ∨ i = .start ∨ (∃ x, i = .rddig x) ∨ i = .padblk)) ∧
    (t.eng.msg ≠ s.eng.msg → ∃ a d, i = .wrmsg a d)

/-- The transition table R191 on the sequencer's own moves: from every state that meets the invariant with FAULT = 0
and no host action pending, the next PHASE, T and OFF. -/
def Obligations.ControlTransferTable : Prop :=
  ∀ s t : State, s.Inv → s.agenda = [] → s.eng.fault = .noFault → step s = .next t →
    (s.eng.phase = .chklen → s.eng.len.toNat < 2 ^ 61 →
      t.eng.phase = .plan ∧ t.eng.t = 0 ∧ t.eng.off = s.eng.off) ∧
    (s.eng.phase = .chklen → 2 ^ 61 ≤ s.eng.len.toNat →
      t.eng.phase = .error ∧ t.eng.errcode = .inputTooLarge ∧ t.eng.t = 0 ∧ t.eng.off = s.eng.off) ∧
    (s.eng.phase = .plan → t.eng.phase = .hinit ∧ t.eng.t = 0 ∧ t.eng.off.value = 0) ∧
    (s.eng.phase = .hinit → t.eng.phase = .padblk ∧ t.eng.t = 0 ∧ t.eng.off = s.eng.off) ∧
    (s.eng.phase = .padblk → t.eng.fault = .noFault →
      t.eng.phase = .wload ∧ t.eng.t = 0 ∧ t.eng.off = s.eng.off) ∧
    (s.eng.phase = .padblk → t.eng.fault ≠ .noFault →
      t.eng.phase = .padblk ∧ t.eng.t = s.eng.t ∧ t.eng.off = s.eng.off) ∧
    (s.eng.phase = .wload → s.eng.t.toNat < 15 →
      t.eng.phase = .wload ∧ t.eng.t = s.eng.t + 1 ∧ t.eng.off = s.eng.off) ∧
    (s.eng.phase = .wload → s.eng.t = 15 → t.eng.phase = .wexp ∧ t.eng.t = 16 ∧ t.eng.off = s.eng.off) ∧
    (s.eng.phase = .wexp → s.eng.t.toNat < 63 →
      t.eng.phase = .wexp ∧ t.eng.t = s.eng.t + 1 ∧ t.eng.off = s.eng.off) ∧
    (s.eng.phase = .wexp → s.eng.t = 63 → t.eng.phase = .rinit ∧ t.eng.t = 0 ∧ t.eng.off = s.eng.off) ∧
    (s.eng.phase = .rinit → t.eng.phase = .round ∧ t.eng.t = 0 ∧ t.eng.off = s.eng.off) ∧
    (s.eng.phase = .round → s.eng.t.toNat < 63 →
      t.eng.phase = .round ∧ t.eng.t = s.eng.t + 1 ∧ t.eng.off = s.eng.off) ∧
    (s.eng.phase = .round → s.eng.t = 63 → t.eng.phase = .hacc ∧ t.eng.t = 0 ∧ t.eng.off = s.eng.off) ∧
    (s.eng.phase = .hacc → s.eng.off.value.toNat + 64 < s.eng.plen.value.toNat →
      t.eng.phase = .padblk ∧ t.eng.t = 0 ∧ t.eng.off.value = s.eng.off.value + 64) ∧
    (s.eng.phase = .hacc → s.eng.off.value.toNat + 64 = s.eng.plen.value.toNat →
      t.eng.phase = .done ∧ t.eng.t = 0 ∧ t.eng.off.value = s.eng.off.value + 64)

/-- R75: during a call no step but the reset event changes MSG or LEN. -/
def Obligations.MessageIsConstantDuringACall : Prop :=
  ∀ s t : State, s.eng.busy = true → (∀ rest, s.agenda ≠ .reset :: rest) → step s = .next t →
    t.eng.msg = s.eng.msg ∧ t.eng.len = s.eng.len

/-- The invariant holds at reset. -/
def Obligations.ResetMeetsTheInvariant : Prop := State.reset.Inv

/-- Every step keeps the invariant (44_sequencer.md R193 (a) to (e), with (b) not in DONE, log 9; 10_state.md R33,
R41; the canonical form of MSG), from every state that meets it, whatever the host does. R193 (b) in DONE is
PaddedLengthStandsUntilWrlen. -/
def Obligations.EveryStepKeepsTheInvariant : Prop :=
  ∀ s t : State, s.Inv → step s = .next t → t.Inv

/-- From every state that meets the invariant the machine goes on: no step stops in a fault or a refusal of the model.
-/
def Obligations.NoStepStopsUnderTheInvariant : Prop :=
  ∀ s : State, s.Inv → ∃ t, step s = .next t

/-- R193 (f) at every micro-operation: during the call that hashes `m`, whatever the host does short of the reset
event, H, BLK, W and R hold what the fold of `compress` over the blocks of `pad m` has at that point; in DONE
PLEN is the padded length of `m` (R193 b). -/
def Obligations.EveryStepKeepsTheRunningHash : Prop :=
  ∀ (m : List Byte) (s t : State), s.Inv → s.eng.busy = true → s.eng.Hashing s.config m →
    (∀ rest, s.agenda ≠ .reset :: rest) → step s = .next t → t.eng.Hashing t.config m

/-- R200 and R194: from every state with the invariant, a call on a loaded message of fewer than 2^61 bytes, started
in a rest phase with FAULT = 0 and no other host action pending (log 3), is busy for `3 + 131 * NBLK` steps after
START and then rests in DONE with `H = h_NBLK`, ERRCODE = 0, FAULT = 0, LEN as at START, PLEN its padded length
(R193 b), OFF = PLEN (R193 d) and the digest `sha256(M)`. -/
def Obligations.CallComputesSha256 : Prop :=
  ∀ (m : List Byte) (s : State), s.Inv →
    m.length < 2 ^ 61 → s.eng.Loaded s.config m → s.eng.fault = .noFault → s.eng.busy = false →
    s.agenda = [startTurn] →
    (∀ k, k < 3 + 131 * blockCount m.length →
      ∃ u : State, Sys2Proof.core.run (1 + k) s = .next u ∧ u.eng.busy = true ∧ u.eng.fault = .noFault) ∧
    ∃ t : State, Sys2Proof.core.run (1 + (3 + 131 * blockCount m.length)) s = .next t ∧
      t.eng.phase = .done ∧ t.eng.errcode = .noError ∧ t.eng.fault = .noFault ∧
      t.eng.len = s.eng.len ∧ t.eng.plen.value.toNat = padLen m.length ∧ t.eng.off.value = t.eng.plen.value ∧
      values t.eng.h = hashAfter m (blockCount m.length) ∧ digestBytes (values t.eng.h) = sha256 m

/-- R200, R194, R231: with `LEN >= 2^61` and no host action but START pending (after it the sequencer has the turn by
default, log 3) the call ends after exactly one step, in ERROR with ERRCODE = 1; H, PLEN, OFF and everything else are
unchanged. -/
def Obligations.TooLongCallEndsInError : Prop :=
  ∀ s : State,
    2 ^ 61 ≤ s.eng.len.toNat → s.eng.fault = .noFault → s.eng.busy = false → s.agenda = [startTurn] →
    Sys2Proof.core.run 2 s = .next { s with
      eng := { s.eng with errcode := .inputTooLarge, t := 0, phase := .error }
      agenda := [], replies := s.replies ++ [.ack] }

/-- R194, R236, R237, from every state with the invariant and no host action but START pending (log 3): where p is the
lowest address below LEN that is out of range or unwritten, the sequencer completes `3 + 131 * (p / 64)` steps and its
next step halts it in PADBLK with MsgRange or MsgUnwritten. -/
def Obligations.MissingByteHaltsTheCall : Prop :=
  ∀ (s : State) (p : Nat), s.Inv →
    s.eng.len.toNat < 2 ^ 61 → s.eng.fault = .noFault → s.eng.busy = false → s.agenda = [startTurn] →
    p < s.eng.len.toNat → (s.config.msgCapacity ≤ p ∨ Memory.read s.eng.msg p = none) →
    (∀ q, q < p → q < s.config.msgCapacity ∧ Memory.read s.eng.msg q ≠ none) →
    ∃ u t : State,
      Sys2Proof.core.run (1 + (3 + 131 * (p / 64))) s = .next u ∧
      u.eng.phase = .padblk ∧ u.eng.fault = .noFault ∧ u.eng.off.value.toNat = 64 * (p / 64) ∧
      step u = .next t ∧
      t.eng = { u.eng with fault := if s.config.msgCapacity ≤ p then .msgRange else .msgUnwritten }

/-- R195: the control flow of a call is a function of LEN and of which message bytes are written and in range, not of
the bytes: two calls at their first step, in instances of one capacity and from states with the invariant, that agree
on those show the same STATUS after every number of steps, whatever they hash and whatever earlier calls left. No host
action is pending, so each step is the sequencer's by default (log 3). -/
def Obligations.StatusRevealsNoMessageByte : Prop :=
  ∀ (s₁ s₂ : State) (n : Nat), s₁.Inv → s₂.Inv →
    s₁.agenda = [] → s₂.agenda = [] → s₁.eng.phase = .chklen → s₂.eng.phase = .chklen →
    s₁.eng.fault = .noFault → s₂.eng.fault = .noFault →
    s₁.config = s₂.config → s₁.eng.len = s₂.eng.len →
    (∀ a, a < s₁.eng.len.toNat →
      (Memory.read s₁.eng.msg a).isSome = (Memory.read s₂.eng.msg a).isSome) →
    ∃ t₁ t₂ : State, Sys2Proof.core.run n s₁ = .next t₁ ∧ Sys2Proof.core.run n s₂ = .next t₂ ∧
      t₁.eng.status = t₂.eng.status

/-- R263: the digest of a call depends only on `MSG[0..LEN-1]` and LEN at START: two machines with the invariant that
agree on those, and on nothing else, end their calls with the same digest. No host action but START is pending; after
it the sequencer has the turn by default (log 3). -/
def Obligations.DigestIsIndependentOfHistory : Prop :=
  ∀ (m : List Byte) (s₁ s₂ : State), s₁.Inv → s₂.Inv →
    m.length < 2 ^ 61 → s₁.eng.Loaded s₁.config m → s₂.eng.Loaded s₂.config m →
    s₁.eng.fault = .noFault → s₂.eng.fault = .noFault → s₁.eng.busy = false → s₂.eng.busy = false →
    s₁.agenda = [startTurn] → s₂.agenda = [startTurn] →
    ∃ t₁ t₂ : State, Sys2Proof.core.run (1 + callSteps m.length) s₁ = .next t₁ ∧
      Sys2Proof.core.run (1 + callSteps m.length) s₂ = .next t₂ ∧
      t₁.eng.phase = .done ∧ t₂.eng.phase = .done ∧ values t₁.eng.h = values t₂.eng.h

/-- R202: RDSTATs between sequencer steps change nothing: from every state with the invariant, the engine after any
interleaving is the engine after as many sequencer steps alone, which are a run with no host action pending (default
turns, log 3). -/
def Obligations.PollingDoesNotDisturbACall : Prop :=
  ∀ (turns : List Turn) (s : State), s.Inv →
    (∀ turn ∈ turns, turn = .seq ∨ turn = rdstatTurn) →
    ∃ t u : State,
      Sys2Proof.core.run turns.length { s with agenda := turns } = .next t ∧
      Sys2Proof.core.run (turns.count .seq) { s with agenda := [] } = .next u ∧ t.eng = u.eng

/-- R217: the host's procedure, from every resting state with the invariant and FAULT = 0. Loading a message that
fits, START, one poll after each step of the call (a number of polls fixed beforehand, log 15) and reading the digest
gives an Ack for each byte, for WRLEN and for START, one STATUS a poll, the last of them DONE, and the 32 bytes of
`sha256(M)`. -/
def Obligations.HostProcedureReturnsSha256 : Prop :=
  ∀ (m : List Byte) (s : State), s.Inv →
    m.length < 2 ^ 61 → m.length ≤ s.config.msgCapacity → s.eng.fault = .noFault → s.eng.busy = false →
    s.agenda = hashTurns m (callSteps m.length) →
    ∃ (t : State) (polls : List Word), Sys2Proof.core.run s.agenda.length s = .next t ∧
      polls.length = callSteps m.length ∧
      t.replies = s.replies ++ List.replicate (m.length + 2) .ack ++ polls.map .data32 ++
        (sha256 m).map .data8 ∧
      polls.getLast? = some 0x0000002A

/-- R193 (b) in HINIT..HACC and in DONE: PLEN is the padded length of LEN and OFF a multiple of 64. Every step of a call
leaves it so, the one that ends it in DONE too, and so does every step from there but a WRLEN accepted in DONE. Such a
WRLEN sets LEN alone (R212), and R193's own reason for (b) is that LEN stays as it is during a call (log 9). -/
def Obligations.PaddedLengthStandsUntilWrlen : Prop :=
  ∀ s t : State, s.Inv → step s = .next t →
    (s.eng.busy = true → t.eng.Planned) ∧
    (s.eng.Planned →
      (∀ w rest v, s.agenda = .command w :: rest → decodeCommand w = .ok (.wrlen v) → s.eng.phase = .done →
        s.eng.fault ≠ .noFault) →
      t.eng.Planned) ∧
    (∀ w rest v, s.agenda = .command w :: rest → decodeCommand w = .ok (.wrlen v) → s.eng.phase = .done →
      s.eng.fault = .noFault → t.eng = { s.eng with len := v })
end

