-- ==== Sys2Proof/Laws/Datapath.lean ====
section
/-! SUPPORT. The wrapping sums of the datapath as numbers (42_compression_rounds.md R156), and the growth of the
schedule. -/

namespace Sys2Proof.Machine

theorem add32_toNat (x y : Word) : (add32 x y).toNat = (x.toNat + y.toNat) % 2 ^ 32 := by
  simp [add32, BitVec.toNat_add]

/-- `rotr` bit by bit (41_schedule_expander.md R141). -/
theorem rotr_getLsbD (x : Word) {n i : Nat} (hn : 0 < n) (hn' : n < 32) (hi : i < 32) :
    (rotr x n).getLsbD i = x.getLsbD ((i + n) % 32) := by
  simp only [rotr, BitVec.getLsbD_or, BitVec.getLsbD_ushiftRight, BitVec.getLsbD_shiftLeft]
  by_cases h : i + n < 32
  · rw [Nat.mod_eq_of_lt h, Nat.add_comm n i]
    simp [show i < 32 - n by omega]
  · rw [Nat.mod_eq_sub_mod (by omega), Nat.mod_eq_of_lt (by omega)]
    simp [show ¬ i < 32 - n by omega, hi, show i - (32 - n) = i + n - 32 by omega,
      BitVec.getLsbD_of_ge x (n + i) (by omega)]

/-- `shr` bit by bit: zeros enter at the top (R141). -/
theorem shr_getLsbD (x : Word) (n i : Nat) :
    (shr x n).getLsbD i = (decide (i + n < 32) && x.getLsbD (i + n)) := by
  simp only [shr, BitVec.getLsbD_ushiftRight, Nat.add_comm n i]
  by_cases h : i + n < 32
  · simp [h]
  · simp [h, BitVec.getLsbD_of_ge x (i + n) (by omega)]

/-- The recurrence word as a number (R145). -/
theorem expandWord_toNat (w16 w15 w7 w2 : Word) :
    (expandWord w16 w15 w7 w2).toNat =
      (w16.toNat + (ssig0 w15).toNat + w7.toNat + (ssig1 w2).toNat) % 2 ^ 32 := by
  simp only [expandWord, add32_toNat]; omega

theorem roundT1_toNat (k w : Word) (r : Vector Word 8) :
    (roundT1 k w r).toNat =
      (r[7].toNat + (bsig1 r[4]).toNat + (ch r[4] r[5] r[6]).toNat + k.toNat + w.toNat) % 2 ^ 32 := by
  simp only [roundT1, add32_toNat]; omega

theorem roundT2_toNat (r : Vector Word 8) :
    (roundT2 r).toNat = ((bsig0 r[0]).toNat + (maj r[0] r[1] r[2]).toNat) % 2 ^ 32 := by
  simp only [roundT2, add32_toNat]

@[simp] theorem addLanes_getElem (x y : Vector Word 8) (i : Nat) (h : i < 8) :
    (addLanes x y)[i] = add32 x[i] y[i] := by simp [addLanes]

/-- The word that step `n` of the schedule adds (R146). -/
theorem scheduleTo_last (b : Vector Byte 64) (n : Nat) :
    (scheduleTo b (n + 1))[n] =
      if h : n < 16 then blockWord b n h
      else expandWord (scheduleTo b n)[n - 16] (scheduleTo b n)[n - 15] (scheduleTo b n)[n - 7]
        (scheduleTo b n)[n - 2] :=
  Vector.getElem_push_eq

/-- Step `n` keeps the words before it. -/
theorem scheduleTo_succ_getElem (b : Vector Byte 64) {i n : Nat} (hi : i < n) :
    (scheduleTo b (n + 1))[i] = (scheduleTo b n)[i] :=
  Vector.getElem_push_lt hi

/-- Later schedule words do not change earlier ones (R146). -/
theorem scheduleTo_getElem (b : Vector Byte 64) {i n k : Nat} (hi : i < n) (hk : n ≤ k) :
    (scheduleTo b k)[i] = (scheduleTo b n)[i] := by
  induction k with
  | zero => omega
  | succ k ih =>
    rcases Nat.lt_or_ge n (k + 1) with hlt | hge
    · rw [scheduleTo_succ_getElem b (by omega), ih (by omega)]
    · have : n = k + 1 := by omega
      subst this; rfl

/-- The first 16 schedule words are the block's words (R146). -/
theorem schedule_block_word (b : Vector Byte 64) (n : Nat) (h : n < 16) :
    (schedule b)[n] = blockWord b n h := by
  unfold schedule
  rw [scheduleTo_getElem b (Nat.lt_succ_self n) (by omega), scheduleTo_last, dif_pos h]

/-- The recurrence of the later schedule words (R146). -/
theorem schedule_recurrence (b : Vector Byte 64) (n : Nat) (h : n < 48) :
    (schedule b)[n + 16] =
      expandWord (schedule b)[n] (schedule b)[n + 1] (schedule b)[n + 9] (schedule b)[n + 14] := by
  have low : ∀ i (_ : i < n + 16), (scheduleTo b (n + 16))[i] = (scheduleTo b 64)[i] :=
    fun i hi => (scheduleTo_getElem b hi (by omega)).symm
  unfold schedule
  rw [scheduleTo_getElem b (Nat.lt_succ_self (n + 16)) (by omega), scheduleTo_last,
    dif_neg (by omega), low, low, low, low]
  simp only [Nat.add_sub_cancel, show n + 16 - 15 = n + 1 by omega, show n + 16 - 7 = n + 9 by omega,
    show n + 16 - 2 = n + 14 by omega]

/-- One more round (R163). -/
theorem roundsTo_succ (h : Vector Word 8) (w : Vector Word 64) (n : Nat) (hn : n + 1 ≤ 64) :
    roundsTo h w (n + 1) hn = roundStep K[n] w[n] (roundsTo h w n (by omega)) := rfl

end Sys2Proof.Machine
end

