-- ==== Sys2Proof/Laws/Decode.lean ====
section
/-! SUPPORT. The fields of a command word and the opcode map, field by field (30_encoding.md R100, R101). -/

namespace Sys2Proof

@[simp] theorem opField_commandWord (op : Byte) (a : DWord) (b : Byte) : opField (commandWord op a b) = op := by
  apply BitVec.eq_of_getLsbD_eq
  intro i hi
  simp only [opField, commandWord, BitVec.getLsbD_extractLsb', BitVec.getLsbD_append]
  simp [hi, show ¬ 72 + i < 8 by omega, show 72 + i - 8 = 64 + i by omega]

@[simp] theorem aField_commandWord (op : Byte) (a : DWord) (b : Byte) : aField (commandWord op a b) = a := by
  apply BitVec.eq_of_getLsbD_eq
  intro i hi
  simp only [aField, commandWord, BitVec.getLsbD_extractLsb', BitVec.getLsbD_append]
  simp [hi, show ¬ 8 + i < 8 by omega]

@[simp] theorem bField_commandWord (op : Byte) (a : DWord) (b : Byte) : bField (commandWord op a b) = b := by
  apply BitVec.eq_of_getLsbD_eq
  intro i hi
  simp only [bField, commandWord, BitVec.getLsbD_extractLsb', BitVec.getLsbD_append]
  simp [hi]

/-- A command word is its three fields (R100). -/
theorem commandWord_fields (w : CommandWord) : commandWord (opField w) (aField w) (bField w) = w := by
  apply BitVec.eq_of_getLsbD_eq
  intro i hi
  simp only [commandWord, opField, aField, bField, BitVec.getLsbD_append, BitVec.getLsbD_extractLsb']
  by_cases h1 : i < 8
  · simp [h1]
  · by_cases h2 : i < 72
    · simp [h1, show i - 8 < 64 by omega, show 8 + (i - 8) = i by omega]
    · simp [h1, show ¬ i - 8 < 64 by omega, show i - 8 - 64 < 8 by omega, show 72 + (i - 8 - 64) = i by omega]

/-- Two command words with the same fields are the same word. -/
theorem commandWord_ext {v w : CommandWord} (h1 : opField v = opField w) (h2 : aField v = aField w)
    (h3 : bField v = bField w) : v = w := by
  rw [← commandWord_fields v, ← commandWord_fields w, h1, h2, h3]

@[simp] theorem opField_and (v w : CommandWord) : opField (v &&& w) = opField v &&& opField w := by
  simp [opField, BitVec.extractLsb'_and]
@[simp] theorem aField_and (v w : CommandWord) : aField (v &&& w) = aField v &&& aField w := by
  simp [aField, BitVec.extractLsb'_and]
@[simp] theorem bField_and (v w : CommandWord) : bField (v &&& w) = bField v &&& bField w := by
  simp [bField, BitVec.extractLsb'_and]

/-- A word selects a row field by field (R101). -/
theorem CommandRow.selects_iff (r : CommandRow) (w : CommandWord) :
    r.selects w = true ↔ opField w &&& opField r.mask = opField r.pattern ∧
      aField w &&& aField r.mask = aField r.pattern ∧ bField w &&& bField r.mask = bField r.pattern := by
  unfold CommandRow.selects
  rw [beq_iff_eq]
  constructor
  · intro h; rw [← h]; simp
  · rintro ⟨h1, h2, h3⟩; exact commandWord_ext (by simpa using h1) (by simpa using h2) (by simpa using h3)

/-- The mask of RDDIG's index clears exactly the indexes above 31 (R101). -/
theorem index_mask_iff (a : DWord) : a &&& 0xFFFFFFFFFFFFFFE0#64 = 0 ↔ a.toNat ≤ 31 := by
  have key : a &&& 0xFFFFFFFFFFFFFFE0#64 = (a >>> 5) <<< 5 := by
    apply BitVec.eq_of_getLsbD_eq
    intro i hi
    simp only [BitVec.getLsbD_and, BitVec.getLsbD_shiftLeft, BitVec.getLsbD_ushiftRight]
    have : (0xFFFFFFFFFFFFFFE0#64).getLsbD i = decide (5 ≤ i) := by
      revert hi; revert i; decide
    rw [this]
    by_cases h5 : i < 5
    · simp [h5, show ¬ 5 ≤ i by omega]
    · simp [h5, show 5 ≤ i by omega, hi, show 5 + (i - 5) = i by omega]
  rw [key, ← BitVec.toNat_inj]
  simp only [BitVec.toNat_shiftLeft, BitVec.toNat_ushiftRight, Nat.shiftRight_eq_div_pow, Nat.shiftLeft_eq]
  have := a.isLt
  simp only [show (0 : DWord).toNat = 0 from rfl]
  omega

/-- No two rows of the opcode map overlap (R101): a word selects at most one. -/
theorem commandRows_disjoint : commandRows.Pairwise fun r q => opField r.pattern ≠ opField q.pattern := by decide

/-- Every row's mask covers the whole opcode (R101). -/
theorem commandRows_mask_op : ∀ r ∈ commandRows, opField r.mask = 0xFF := by decide

end Sys2Proof
end

