-- ==== Sys2Proof/Laws/Memory.lean ====
section
/-! SUPPORT. The laws of message memory: read after write, and the canonical form. -/

namespace Sys2Proof.Machine

@[simp] theorem Memory.read_nil (a : Nat) : Memory.read [] a = none := rfl

/-- A read of the address just written gives the value written (20_memory.md R72). -/
theorem Memory.read_write_same (m : Memory) (a : Nat) (v : Byte) : Memory.read (Memory.write m a v) a = some v := by
  induction m with
  | nil => simp [Memory.write, Memory.read]
  | cons c rest ih =>
    obtain ⟨k, b⟩ := c
    simp only [Memory.write]
    split
    · simp [Memory.read]
    · split
      · simp [Memory.read]
      · simp [Memory.read, ih]; omega

/-- A write leaves every other address alone. -/
theorem Memory.read_write_other (m : Memory) {a b : Nat} (v : Byte) (h : b ≠ a) :
    Memory.read (Memory.write m a v) b = Memory.read m b := by
  induction m with
  | nil => simp [Memory.write, Memory.read]; omega
  | cons c rest ih =>
    obtain ⟨k, w⟩ := c
    simp only [Memory.write]
    split
    · rw [Memory.read, if_neg (by omega)]
    · split
      · next hk => subst hk; simp [Memory.read, Ne.symm h]
      · simp [Memory.read, ih]

theorem Memory.read_write (m : Memory) (a b : Nat) (v : Byte) :
    Memory.read (Memory.write m a v) b = if b = a then some v else Memory.read m b := by
  split
  · next h => subst h; exact Memory.read_write_same m _ v
  · next h => exact Memory.read_write_other m v h

/-- The addresses a write can list: its own and those listed before. -/
theorem Memory.mem_write {m : Memory} {a : Nat} {v : Byte} {c : Host.Cell} (h : c ∈ Memory.write m a v) :
    c.1 = a ∨ c ∈ m := by
  induction m with
  | nil => simp [Memory.write] at h; simp [h]
  | cons d rest ih =>
    obtain ⟨k, b⟩ := d
    simp only [Memory.write] at h
    split at h
    · rcases List.mem_cons.mp h with rfl | h
      · exact .inl rfl
      · exact .inr h
    · split at h
      · rcases List.mem_cons.mp h with rfl | h
        · exact .inl rfl
        · exact .inr (List.mem_cons_of_mem _ h)
      · rcases List.mem_cons.mp h with rfl | h
        · exact .inr List.mem_cons_self
        · exact (ih h).imp id (List.mem_cons_of_mem _)

/-- A byte that is read is listed. -/
theorem Memory.mem_of_read {m : Memory} {a : Nat} {b : Byte} (h : Memory.read m a = some b) : (a, b) ∈ m := by
  induction m with
  | nil => cases h
  | cons d rest ih =>
    obtain ⟨k, v⟩ := d
    simp only [Memory.read] at h
    split at h
    · next hk => cases h; subst hk; exact List.mem_cons_self
    · exact List.mem_cons_of_mem _ (ih h)

/-- A write keeps the canonical form. -/
theorem Memory.write_wf {m : Memory} (a : Nat) (v : Byte) (h : Memory.wf m) : Memory.wf (Memory.write m a v) := by
  induction m with
  | nil => simp [Memory.write]
  | cons d rest ih =>
    obtain ⟨k, b⟩ := d
    have ⟨hk, hr⟩ := List.pairwise_cons.mp h
    simp only [Memory.write]
    split
    · next hlt =>
      refine List.pairwise_cons.mpr ⟨fun c hc => ?_, h⟩
      rcases List.mem_cons.mp hc with rfl | hc
      · exact hlt
      · exact Nat.lt_trans hlt (hk c hc)
    · split
      · next heq => subst heq; exact List.pairwise_cons.mpr ⟨hk, hr⟩
      · refine List.pairwise_cons.mpr ⟨fun c hc => ?_, ih hr⟩
        rcases Memory.mem_write hc with hc | hc
        · simp only [hc]; omega
        · exact hk c hc

/-- Reset's message memory is in canonical form. -/
theorem Memory.reset_wf : Memory.wf State.reset.eng.msg := List.Pairwise.nil

/-- The engine's read, entirely (20_memory.md R62). -/
theorem engineRead_eq (c : Config) (m : Memory) (a : Nat) :
    engineRead c m a =
      if c.msgCapacity ≤ a then .error .msgRange
      else (Memory.read m a).elim (.error .msgUnwritten) .ok := by
  unfold engineRead; split
  · rfl
  · cases Memory.read m a <;> rfl

/-- The engine's read answers a byte exactly when the address is in range and written. -/
theorem engineRead_ok_iff {c : Config} {m : Memory} {a : Nat} {b : Byte} :
    engineRead c m a = .ok b ↔ a < c.msgCapacity ∧ Memory.read m a = some b := by
  rw [engineRead_eq]
  split
  · next h => constructor
              · intro h'; cases h'
              · intro h'; omega
  · next h =>
    cases hr : Memory.read m a
    · simp
    · simp; omega

/-- Everything the host's write can do (20_memory.md R61). -/
theorem hostWrite_eq (c : Config) (m : Memory) (a : DWord) (v : Byte) :
    hostWrite c m a v = if c.msgCapacity ≤ a.toNat then .error .msgRange else .ok (Memory.write m a.toNat v) := rfl

end Sys2Proof.Machine
end

