-- ==== Sys2Proof/Laws/Ops.lean ====
section
/-! SUPPORT. What the shared operations over register files and runs of reads can do, and the arithmetic of operands. -/

namespace Sys2Proof.Machine

@[simp] theorem values_getElem {n k : Nat} (f : Vector (Slot n) k) (i : Nat) (h : i < k) :
    (values f)[i] = f[i].value := by simp [values]

@[simp] theorem putAll_getElem {n k : Nat} (v : Vector (BitVec n) k) (i : Nat) (h : i < k) :
    (putAll v)[i] = ⟨v[i], true⟩ := by simp [putAll, Slot.put]

/-- Reading back a file that was just written gives what was written (R72). -/
@[simp] theorem values_putAll {n k : Nat} (v : Vector (BitVec n) k) : values (putAll v) = v := by
  ext i h; simp

/-- `collect` answers a vector exactly when every read answers its element. -/
theorem collect_ok_iff {ε α : Type} {n : Nat} {f : Nat → Except ε α} {v : Vector α n} :
    collect n f = .ok v ↔ ∀ i (h : i < n), f i = .ok v[i] := by
  induction n with
  | zero => simp only [collect]; constructor
            · intro _ i h; omega
            · intro _; congr 1; ext i h; omega
  | succ n ih =>
    constructor
    · intro h
      simp only [collect] at h
      split at h
      · cases h
      · next u hu =>
        split at h
        · cases h
        · next b hb =>
          cases h
          intro i hi
          rcases Nat.lt_succ_iff_lt_or_eq.mp hi with hlt | rfl
          · rw [Vector.getElem_push_lt hlt]; exact ih.mp hu i hlt
          · rw [Vector.getElem_push_eq]; exact hb
    · intro h
      have hu : collect n f = .ok v.pop :=
        ih.mpr fun i hi => by rw [h i (by omega)]; simp
      have hb := h n (by omega)
      simp only [collect, hu, hb]
      congr 1
      exact Vector.push_pop_back v

/-- `collect` fails with the first read that fails (60_exceptions.md R239). -/
theorem collect_error_of_first {ε α : Type} {n : Nat} {f : Nat → Except ε α} {x : ε} {i : Nat} (hi : i < n)
    (hx : f i = .error x) (hlow : ∀ j, j < i → ∃ b, f j = .ok b) : collect n f = .error x := by
  induction n with
  | zero => omega
  | succ n ih =>
    simp only [collect]
    rcases Nat.lt_succ_iff_lt_or_eq.mp hi with hlt | rfl
    · rw [ih hlt]
    · cases hc : collect i f with
      | ok v => simp [hx]
      | error y =>
        exfalso
        choose g hg using hlow
        have : collect i f = .ok (Vector.ofFn fun j : Fin i => g j.val j.isLt) :=
          collect_ok_iff.mpr fun j hj => by simp [hg j hj]
        rw [hc] at this; cases this

/-- When `collect` fails, some read fails and every one before it succeeds. -/
theorem collect_error {ε α : Type} {n : Nat} {f : Nat → Except ε α} {x : ε} (h : collect n f = .error x) :
    ∃ i, i < n ∧ f i = .error x ∧ ∀ j, j < i → ∃ b, f j = .ok b := by
  induction n with
  | zero => cases h
  | succ n ih =>
    simp only [collect] at h
    split at h
    · next y hy => cases h; obtain ⟨i, hi, hx, hl⟩ := ih hy; exact ⟨i, by omega, hx, hl⟩
    · next v hv =>
      split at h
      · next y hy => cases h; exact ⟨n, by omega, hy, fun j hj => ⟨v[j], collect_ok_iff.mp hv j hj⟩⟩
      · cases h

/-! ### Operands -/

/-- `be32` as a number (R10). -/
theorem be32_toNat (b0 b1 b2 b3 : Byte) :
    (be32 b0 b1 b2 b3).toNat = b0.toNat * 2 ^ 24 + b1.toNat * 2 ^ 16 + b2.toNat * 2 ^ 8 + b3.toNat := by
  have h0 := b0.isLt; have h1 := b1.isLt; have h2 := b2.isLt; have h3 := b3.isLt
  simp only [be32, BitVec.toNat_append]
  rw [← Nat.shiftLeft_add_eq_or_of_lt (by omega), ← Nat.shiftLeft_add_eq_or_of_lt (by omega),
    ← Nat.shiftLeft_add_eq_or_of_lt (by omega)]
  simp only [Nat.shiftLeft_eq]; omega

/-- `be64byte` as a number (R10). -/
theorem be64byte_toNat (v : DWord) (k : Nat) : (be64byte v k).toNat = v.toNat / 2 ^ (56 - 8 * k) % 256 := by
  simp [be64byte, BitVec.extractLsb', Nat.shiftRight_eq_div_pow]

/-- PLAN's 64-bit computation is exact for a checked length (40_padding_unit.md R122). -/
theorem paddedLength_toNat {l : DWord} (h : l.toNat < 2 ^ 61) :
    (paddedLength l).toNat = (l.toNat + 9 + 63) / 64 * 64 := by
  have h1 : (l + 9 + 63).toNat = l.toNat + 9 + 63 := by
    simp only [BitVec.toNat_add, show (9 : DWord).toNat = 9 from rfl, show (63 : DWord).toNat = 63 from rfl]; omega
  simp only [paddedLength, BitVec.toNat_shiftLeft, BitVec.toNat_ushiftRight, h1, Nat.shiftRight_eq_div_pow,
    Nat.shiftLeft_eq]
  omega

/-- The bit length of a checked length loses no bit (30_encoding.md R91). -/
theorem bitLength_toNat (l : DWord) : (l <<< 3).toNat = l.toNat * 8 % 2 ^ 64 := by
  simp [BitVec.toNat_shiftLeft, Nat.shiftLeft_eq]

/-- A digest byte as a number (30_encoding.md R93). -/
theorem digestByte_toNat (h : Vector Word 8) (i : Fin 32) :
    (digestByte h i).toNat = (h[i.val / 4]'(by omega)).toNat / 2 ^ (24 - 8 * (i.val % 4)) % 256 := by
  simp [digestByte, BitVec.extractLsb', Nat.shiftRight_eq_div_pow]

/-- Only the message part of PAD can fail, and exactly as the engine's read does (R124). -/
theorem padByte_error_iff {c : Config} {e : Engine} {p : Nat} {f : FaultCode} :
    padByte c e p = .error f ↔ p < e.len.toNat ∧ engineRead c e.msg p = .error f := by
  unfold padByte
  split
  · simp [*]
  · split
    · simp [*]
    · split <;> simp [*]

/-- PAD below LEN is the message (R124). -/
theorem padByte_message {c : Config} {e : Engine} {p : Nat} (h : p < e.len.toNat) :
    padByte c e p = engineRead c e.msg p := by rw [padByte, if_pos h]

/-- PAD at LEN is the marker. -/
theorem padByte_marker {c : Config} {e : Engine} {p : Nat} (h : p = e.len.toNat) : padByte c e p = .ok 0x80 := by
  rw [padByte, if_neg (by omega), if_pos h]

/-- PAD between marker and length field is zero. -/
theorem padByte_zero {c : Config} {e : Engine} {p : Nat} (h : e.len.toNat < p) (h' : p < e.plen.value.toNat - 8) :
    padByte c e p = .ok 0 := by
  rw [padByte, if_neg (by omega), if_neg (by omega), if_pos h']

/-- PAD in its last eight bytes is the length field. -/
theorem padByte_length {c : Config} {e : Engine} {p : Nat} (h : e.len.toNat < p) (h' : e.plen.value.toNat - 8 ≤ p) :
    padByte c e p = .ok (be64byte (e.len <<< 3) (p - (e.plen.value.toNat - 8))) := by
  rw [padByte, if_neg (by omega), if_neg (by omega), if_neg (by omega)]

/-- A byte of PAD can be read where its message byte, if it is one, is in range and written. -/
theorem padByte_ok {c : Config} {e : Engine} {p : Nat}
    (h : p < e.len.toNat → p < c.msgCapacity ∧ Memory.read e.msg p ≠ none) : ∃ b, padByte c e p = .ok b := by
  cases hp : padByte c e p with
  | ok b => exact ⟨b, rfl⟩
  | error f =>
    exfalso
    obtain ⟨hlt, hr⟩ := padByte_error_iff.mp hp
    obtain ⟨b, hb⟩ := Option.ne_none_iff_exists'.mp (h hlt).2
    rw [engineRead_ok_iff.mpr ⟨(h hlt).1, hb⟩] at hr
    cases hr

/-! ### The index T -/

/-- T against a literal, as numbers. -/
theorem t_eq_iff {t : BitVec 6} {n m : Nat} (h : t.toNat = n) (hm : m < 64) : t = BitVec.ofNat 6 m ↔ n = m := by
  rw [← BitVec.toNat_inj, h, BitVec.toNat_ofNat]; omega

/-- `T + 1`, as a number. -/
theorem t_succ {t : BitVec 6} {n : Nat} (h : t.toNat = n) : t + 1 = BitVec.ofNat 6 (n + 1) := by
  rw [← BitVec.toNat_inj, BitVec.toNat_add, h, BitVec.toNat_ofNat]; rfl

end Sys2Proof.Machine
end

