-- ==== Sys2Proof/Laws/State.lean ====
section
/-! SUPPORT. What each shared update of State leaves in each field, and the flags by phase. -/

namespace Sys2Proof.Machine

@[simp] theorem Slot.put_value {n : Nat} (v : BitVec n) : (Slot.put v).value = v := rfl
@[simp] theorem Slot.put_written {n : Nat} (v : BitVec n) : (Slot.put v).written = true := rfl

@[simp] theorem reply_config (s : State) (r : Response) : (s.reply r).config = s.config := rfl
@[simp] theorem reply_eng (s : State) (r : Response) : (s.reply r).eng = s.eng := rfl
@[simp] theorem reply_agenda (s : State) (r : Response) : (s.reply r).agenda = s.agenda := rfl
@[simp] theorem reply_replies (s : State) (r : Response) : (s.reply r).replies = s.replies ++ [r] := rfl

@[simp] theorem resetEvent_config (s : State) : (resetEvent s).config = s.config := rfl
@[simp] theorem resetEvent_eng (s : State) : (resetEvent s).eng = Engine.reset := rfl
@[simp] theorem resetEvent_agenda (s : State) : (resetEvent s).agenda = s.agenda := rfl
@[simp] theorem resetEvent_replies (s : State) : (resetEvent s).replies = s.replies := rfl

@[simp] theorem raiseInputTooLarge_config (s : State) : (raiseInputTooLarge s).config = s.config := rfl
@[simp] theorem raiseInputTooLarge_agenda (s : State) : (raiseInputTooLarge s).agenda = s.agenda := rfl
@[simp] theorem raiseInputTooLarge_replies (s : State) : (raiseInputTooLarge s).replies = s.replies := rfl
@[simp] theorem raiseInputTooLarge_eng (s : State) :
    (raiseInputTooLarge s).eng = { s.eng with errcode := .inputTooLarge, phase := .error } := rfl

/-- Everything `raiseFault` does (R238): FAULT keeps the first code, nothing else changes. -/
theorem raiseFault_eq (f : FaultCode) (s : State) :
    raiseFault f s = { s with eng := { s.eng with fault := if s.eng.fault = .noFault then f else s.eng.fault } } := by
  unfold raiseFault; split <;> simp_all

theorem raiseFault_of_noFault {s : State} (f : FaultCode) (h : s.eng.fault = .noFault) :
    raiseFault f s = { s with eng := { s.eng with fault := f } } := by simp [raiseFault, h]

theorem raiseFault_of_faulted {s : State} (f : FaultCode) (h : s.eng.fault ≠ .noFault) : raiseFault f s = s := by
  simp [raiseFault, h]

@[simp] theorem raiseFault_config (f : FaultCode) (s : State) : (raiseFault f s).config = s.config := by
  rw [raiseFault_eq]
@[simp] theorem raiseFault_agenda (f : FaultCode) (s : State) : (raiseFault f s).agenda = s.agenda := by
  rw [raiseFault_eq]
@[simp] theorem raiseFault_replies (f : FaultCode) (s : State) : (raiseFault f s).replies = s.replies := by
  rw [raiseFault_eq]
@[simp] theorem raiseFault_eng (f : FaultCode) (s : State) :
    (raiseFault f s).eng = { s.eng with fault := if s.eng.fault = .noFault then f else s.eng.fault } := by
  rw [raiseFault_eq]

/-- A faulting command on an engine that is not halted (R210). -/
theorem commandFault_of_noFault {s : State} (f : FaultCode) (h : s.eng.fault = .noFault) :
    commandFault f s = { s with eng := { s.eng with fault := f }, replies := s.replies ++ [.nak] } := by
  simp [commandFault, raiseFault_of_noFault f h, State.reply]

@[simp] theorem commandFault_config (f : FaultCode) (s : State) : (commandFault f s).config = s.config := by
  simp [commandFault]
@[simp] theorem commandFault_agenda (f : FaultCode) (s : State) : (commandFault f s).agenda = s.agenda := by
  simp [commandFault]
@[simp] theorem commandFault_replies (f : FaultCode) (s : State) :
    (commandFault f s).replies = s.replies ++ [.nak] := by simp [commandFault]
@[simp] theorem commandFault_eng (f : FaultCode) (s : State) :
    (commandFault f s).eng = { s.eng with fault := if s.eng.fault = .noFault then f else s.eng.fault } := by
  simp [commandFault]

/-- A command on an engine that is not halted runs its own rule. -/
theorem unlessHalted_of_noFault {s : State} (body : State) (h : s.eng.fault = .noFault) :
    unlessHalted s body = .next body := by simp [unlessHalted, h]

/-- A command on a halted engine changes nothing and is answered Nak (R210 step 3). -/
theorem unlessHalted_of_faulted {s : State} (body : State) (h : s.eng.fault ≠ .noFault) :
    unlessHalted s body = .next (s.reply .nak) := by simp [unlessHalted, h]

/-! ### The flags, phase by phase -/

/-- BUSY is 0 exactly in the rest phases (R36, R190). -/
theorem busy_eq_false_iff (e : Engine) :
    e.busy = false ↔ e.phase = .idle ∨ e.phase = .done ∨ e.phase = .error := by
  unfold Engine.busy; cases e.phase <;> simp [Phase.code]

/-- What the sequencer decodes from PHASE (R104): a micro-operation exactly when BUSY. -/
theorem decodeMicro_phaseCode (p : Phase) :
    decodeMicro p.code =
      match p with
      | .idle | .done | .error => .error .restPhase
      | .chklen => .ok .chklen
      | .plan => .ok .plan
      | .hinit => .ok .hinit
      | .padblk => .ok .padblk
      | .wload => .ok .wload
      | .wexp => .ok .wexp
      | .rinit => .ok .rinit
      | .round => .ok .round
      | .hacc => .ok .hacc := by
  cases p <;> rfl

theorem Phase.ofCode_code (p : Phase) : Phase.ofCode p.code = some p := by cases p <;> rfl

/-- Everything the end of a loop pass does (R191). -/
theorem loopStep_eq (last first : BitVec 6) (p : Phase) (e : Engine) :
    Engine.loopStep last first p e =
      { e with t := if e.t = last then first else e.t + 1, phase := if e.t = last then p else e.phase } := by
  unfold Engine.loopStep; split <;> rfl

end Sys2Proof.Machine
end

