-- ==== Sys2Proof/Laws/Exec.lean ====
section
/-! SUPPORT. Everything a host command can do to the engine, and each micro-operation's outcome where it has one. -/

namespace Sys2Proof.Machine

/-- The effects a command can have on the engine (45_host_commands.md R210 to R215, 10_state.md R44). -/
inductive CommandEffect (c : Config) (e : Engine) : Engine → Prop
  /-- A read, or a command answered Nak on a halted engine. -/
  | same : CommandEffect c e e
  /-- A fault: FAULT and nothing else. -/
  | fault (f : FaultCode) : e.fault = .noFault → f ≠ .noFault → CommandEffect c e { e with fault := f }
  /-- WRMSG outside a call, in range. -/
  | msg (a : Nat) (v : Byte) : e.fault = .noFault → e.busy = false → a < c.msgCapacity →
      CommandEffect c e { e with msg := Memory.write e.msg a v }
  /-- WRLEN outside a call. -/
  | len (v : DWord) : e.fault = .noFault → e.busy = false → CommandEffect c e { e with len := v }
  /-- START outside a call. -/
  | start : e.fault = .noFault → e.busy = false →
      CommandEffect c e { e with errcode := .noError, t := 0, phase := .chklen }

/-- `o` is the outcome of a command at `s`: a next state with one more response, one of the effects on the engine, and
nothing else changed. -/
def CommandOutcome (s : State) (o : Host.Outcome State Fault Refusal) : Prop :=
  ∃ t r, o = .next t ∧ t.config = s.config ∧ t.agenda = s.agenda ∧ t.replies = s.replies ++ [r] ∧
    CommandEffect s.config s.eng t.eng

/-- A command that only responds. -/
theorem CommandOutcome.of_reply (s : State) (r : Response) : CommandOutcome s (.next (s.reply r)) :=
  ⟨_, r, rfl, rfl, rfl, rfl, .same⟩

/-- A command that faults. -/
theorem CommandOutcome.of_fault {s : State} {f : FaultCode} (h : s.eng.fault = .noFault) (hf : f ≠ .noFault) :
    CommandOutcome s (.next (commandFault f s)) :=
  ⟨_, .nak, rfl, by simp, by simp, by simp, by rw [commandFault_of_noFault f h]; exact .fault f h hf⟩

/-- Every command passes the halted test first. -/
theorem CommandOutcome.of_unlessHalted {s body : State}
    (h : s.eng.fault = .noFault → CommandOutcome s (.next body)) : CommandOutcome s (unlessHalted s body) := by
  by_cases hf : s.eng.fault = .noFault
  · rw [unlessHalted_of_noFault body hf]; exact h hf
  · rw [unlessHalted_of_faulted body hf]; exact .of_reply s .nak

theorem execWrmsg_outcome (addr : DWord) (data : Byte) (s : State) : CommandOutcome s (execWrmsg addr data s) := by
  refine .of_unlessHalted fun hf => ?_
  split
  · exact .of_fault hf (by decide)
  · next hb =>
    rw [hostWrite_eq]
    split
    · next f hw => split at hw <;> cases hw; exact .of_fault hf (by decide)
    · next m hw =>
      split at hw <;> cases hw
      exact ⟨_, .ack, rfl, rfl, rfl, rfl, .msg _ _ hf (by simpa using hb) (by omega)⟩

theorem execWrlen_outcome (value : DWord) (s : State) : CommandOutcome s (execWrlen value s) := by
  refine .of_unlessHalted fun hf => ?_
  split
  · exact .of_fault hf (by decide)
  · next hb => exact ⟨_, .ack, rfl, rfl, rfl, rfl, .len value hf (by simpa using hb)⟩

theorem execStart_outcome (s : State) : CommandOutcome s (execStart s) := by
  refine .of_unlessHalted fun hf => ?_
  split
  · exact .of_fault hf (by decide)
  · next hb => exact ⟨_, .ack, rfl, rfl, rfl, rfl, .start hf (by simpa using hb)⟩

theorem execRdstat_outcome (s : State) : CommandOutcome s (execRdstat s) := .of_reply s _

theorem execRddig_outcome (idx : DWord) (s : State) : CommandOutcome s (execRddig idx s) := by
  refine .of_unlessHalted fun hf => ?_
  split
  · split
    · exact .of_reply s _
    · exact .of_fault hf (by decide)
  · exact .of_fault hf (by decide)

theorem illegalWord_outcome (s : State) : CommandOutcome s (illegalWord s) :=
  .of_unlessHalted fun hf => .of_fault hf (by decide)

/-- The decoder reads only host commands from a command word (R101). -/
theorem decodeCommand_ok_cases {w : CommandWord} {i : Instr} (h : decodeCommand w = .ok i) :
    (∃ a d, i = .wrmsg a d) ∨ (∃ v, i = .wrlen v) ∨ i = .start ∨ i = .rdstat ∨ ∃ x, i = .rddig x := by
  unfold decodeCommand at h
  repeat' split at h
  all_goals cases h
  all_goals simp

/-- Everything the host's turn with a command word can do (R210). -/
theorem commandTurn_outcome (w : CommandWord) (s : State) : CommandOutcome s (commandTurn w s) := by
  unfold commandTurn
  split
  · next i hi =>
    rcases decodeCommand_ok_cases hi with ⟨a, d, rfl⟩ | ⟨v, rfl⟩ | rfl | rfl | ⟨x, rfl⟩
    · exact execWrmsg_outcome a d s
    · exact execWrlen_outcome v s
    · exact execStart_outcome s
    · exact execRdstat_outcome s
    · exact execRddig_outcome x s
  · exact illegalWord_outcome s

/-! ### The micro-operations -/

theorem execChklen_of_lt {s : State} (h : s.eng.len.toNat < 2 ^ 61) :
    execChklen s = .next { s with eng := { s.eng with phase := .plan } } := by
  rw [execChklen, if_neg (by omega)]

theorem execChklen_of_ge {s : State} (h : 2 ^ 61 ≤ s.eng.len.toNat) :
    execChklen s = .next { s with eng := { s.eng with errcode := .inputTooLarge, phase := .error } } := by
  rw [execChklen, if_pos h]; rfl

theorem execPlan_of_lt {s : State} (h : s.eng.len.toNat < 2 ^ 61) :
    execPlan s = .next { s with eng := { s.eng with
      plen := ⟨paddedLength s.eng.len, true⟩, off := ⟨0, true⟩, phase := .hinit } } := by
  rw [execPlan, if_neg (by omega)]; rfl

theorem padDefined_iff (e : Engine) :
    e.padDefined = true ↔
      e.len.toNat + 9 ≤ e.plen.value.toNat ∧ e.off.value.toNat + 64 ≤ e.plen.value.toNat := by
  simp [Engine.padDefined]

/-- PADBLK where every byte of the block can be read. -/
theorem execPadblk_of_ok {s : State} {v : Vector Byte 64} (hd : s.eng.padDefined = true)
    (hv : ∀ j (h : j < 64), padByte s.config s.eng (s.eng.off.value.toNat + j) = .ok v[j]) :
    execPadblk s = .next { s with eng := { s.eng with blk := putAll v, t := 0, phase := .wload } } := by
  rw [execPadblk, if_pos hd, collect_ok_iff.mpr hv]

/-- PADBLK where byte `j` is the first that cannot be read. -/
theorem execPadblk_of_error {s : State} {f : FaultCode} {j : Nat} (hd : s.eng.padDefined = true) (hj : j < 64)
    (hf : padByte s.config s.eng (s.eng.off.value.toNat + j) = .error f)
    (hlow : ∀ i, i < j → ∃ b, padByte s.config s.eng (s.eng.off.value.toNat + i) = .ok b) :
    execPadblk s = .next (raiseFault f s) := by
  rw [execPadblk, if_pos hd, collect_error_of_first hj hf hlow]

/-- Everything PADBLK can do where its bytes are defined: a whole block, or the first failing byte's fault. -/
theorem execPadblk_cases {s : State} (hd : s.eng.padDefined = true) :
    (∃ v : Vector Byte 64, (∀ j (h : j < 64), padByte s.config s.eng (s.eng.off.value.toNat + j) = .ok v[j]) ∧
      execPadblk s = .next { s with eng := { s.eng with blk := putAll v, t := 0, phase := .wload } }) ∨
    (∃ j f, j < 64 ∧ s.eng.off.value.toNat + j < s.eng.len.toNat ∧
      engineRead s.config s.eng.msg (s.eng.off.value.toNat + j) = .error f ∧
      (∀ i, i < j → ∃ b, padByte s.config s.eng (s.eng.off.value.toNat + i) = .ok b) ∧
      execPadblk s = .next (raiseFault f s)) := by
  cases hc : collect 64 fun j => padByte s.config s.eng (s.eng.off.value.toNat + j) with
  | ok v =>
    have hv := collect_ok_iff.mp hc
    exact .inl ⟨v, hv, execPadblk_of_ok hd hv⟩
  | error f =>
    obtain ⟨j, hj, hx, hlow⟩ := collect_error hc
    have ⟨hlt, hr⟩ := padByte_error_iff.mp hx
    exact .inr ⟨j, f, hj, hlt, hr, hlow, execPadblk_of_error hd hj hx hlow⟩

theorem execWload_of_lt {s : State} (h : s.eng.t.toNat < 16) :
    execWload s = .next { s with eng := { s.eng with
      w := s.eng.w.set s.eng.t.toNat ⟨blockWord (values s.eng.blk) s.eng.t.toNat h, true⟩
      t := if s.eng.t = 15 then 16 else s.eng.t + 1
      phase := if s.eng.t = 15 then .wexp else s.eng.phase } } := by
  rw [execWload, dif_pos h]; simp only [loopStep_eq]; rfl

theorem execWexp_of_ge {s : State} {n : Nat} (hn : n < 48) (h : s.eng.t.toNat = n + 16) :
    execWexp s = .next { s with eng := { s.eng with
      w := s.eng.w.set (n + 16) ⟨expandWord s.eng.w[n].value s.eng.w[n + 1].value s.eng.w[n + 9].value
        s.eng.w[n + 14].value, true⟩
      t := if s.eng.t = 63 then 0 else s.eng.t + 1
      phase := if s.eng.t = 63 then .rinit else s.eng.phase } } := by
  rw [execWexp, if_pos (by omega)]
  simp only [loopStep_eq, h, Nat.add_sub_cancel, show n + 16 - 15 = n + 1 by omega,
    show n + 16 - 7 = n + 9 by omega, show n + 16 - 2 = n + 14 by omega]
  rfl

theorem execRinit_eq (s : State) :
    execRinit s = .next { s with eng := { s.eng with r := putAll (values s.eng.h), t := 0, phase := .round } } := rfl

theorem execRound_eq (s : State) :
    execRound s = .next { s with eng := { s.eng with
      r := putAll (roundStep (K[s.eng.t.toNat]'(by have := s.eng.t.isLt; omega))
        (s.eng.w[s.eng.t.toNat]'(by have := s.eng.t.isLt; omega)).value (values s.eng.r))
      t := if s.eng.t = 63 then 0 else s.eng.t + 1
      phase := if s.eng.t = 63 then .hacc else s.eng.phase } } := by
  rw [execRound]; simp only [loopStep_eq]

theorem execHinit_eq (s : State) :
    execHinit s = .next { s with eng := { s.eng with h := putAll IV, phase := .padblk } } := rfl

theorem execHacc_of_lt {s : State} (h : s.eng.off.value.toNat + 64 < 2 ^ 64) :
    execHacc s = .next { s with eng := { s.eng with
      h := putAll (addLanes (values s.eng.h) (values s.eng.r))
      off := ⟨s.eng.off.value + 64, true⟩
      phase := if s.eng.off.value.toNat + 64 < s.eng.plen.value.toNat then .padblk else .done } } := by
  rw [execHacc, if_pos h]; rfl

end Sys2Proof.Machine
end

