-- ==== Sys2Proof/Laws/PerInstr.lean ====
section
/-! SUPPORT. Statements about every instruction as syntax, one lemma per constructor. -/

namespace Sys2Proof.Laws.EncodeSelectsRow

/-- The encoding of a well-formed instruction selects its own row of opcode_table.json (30_encoding.md R113): a command
word by match and mask, a micro-operation by its code. -/
def Statement (i : Instr) : Prop :=
  i.wf = true →
    match encode i with
    | .hc w => ∃ r ∈ commandRows, r.mnemonic = i.mnemonic ∧ r.selects w = true
    | .mo c => (i.mnemonic, c) ∈ microRows

/-- A micro-operation selects its row by its code alone. -/
theorem of_microRow {i : Instr} {c : MicroCode} (hc : encode i = .mo c) (hrow : (i.mnemonic, c) ∈ microRows) :
    Statement i := fun _ => by rw [hc]; exact hrow

theorem wrmsg (addr : DWord) (data : Byte) : Statement (.wrmsg addr data) := fun _ =>
  ⟨⟨"WRMSG", 0x01000000000000000000, 0xFF000000000000000000⟩, by decide, rfl, (CommandRow.selects_iff _ _).mpr (by
    simp only [opField_commandWord, aField_commandWord, bField_commandWord]
    exact ⟨by decide, BitVec.and_zero, BitVec.and_zero⟩)⟩

theorem wrlen (value : DWord) : Statement (.wrlen value) := fun _ =>
  ⟨⟨"WRLEN", 0x02000000000000000000, 0xFF0000000000000000FF⟩, by decide, rfl, (CommandRow.selects_iff _ _).mpr (by
    simp only [opField_commandWord, aField_commandWord, bField_commandWord]
    exact ⟨by decide, BitVec.and_zero, by decide⟩)⟩

theorem start : Statement .start := fun _ => ⟨_, .tail _ (.tail _ (.head _)), rfl, by decide⟩

theorem rdstat : Statement .rdstat := fun _ => ⟨_, .tail _ (.tail _ (.tail _ (.head _))), rfl, by decide⟩

theorem rddig (idx : DWord) : Statement (.rddig idx) := fun h =>
  ⟨⟨"RDDIG", 0x05000000000000000000, 0xFFFFFFFFFFFFFFFFE0FF⟩, by decide, rfl, (CommandRow.selects_iff _ _).mpr (by
    simp only [opField_commandWord, aField_commandWord, bField_commandWord]
    exact ⟨by decide, (index_mask_iff idx).mpr (of_decide_eq_true h), by decide⟩)⟩

theorem chklen : Statement .chklen := of_microRow rfl (by decide)
theorem plan : Statement .plan := of_microRow rfl (by decide)
theorem hinit : Statement .hinit := of_microRow rfl (by decide)
theorem padblk : Statement .padblk := of_microRow rfl (by decide)
theorem wload : Statement .wload := of_microRow rfl (by decide)
theorem wexp : Statement .wexp := of_microRow rfl (by decide)
theorem rinit : Statement .rinit := of_microRow rfl (by decide)
theorem round : Statement .round := of_microRow rfl (by decide)
theorem hacc : Statement .hacc := of_microRow rfl (by decide)

end Sys2Proof.Laws.EncodeSelectsRow
end

