-- ==== Sys2Proof/Laws/Step.lean ====
section
/-! SUPPORT. What a step is, turn by turn, and what the sequencer performs in each phase. -/

namespace Sys2Proof.Machine

theorem step_of_nil {s : State} (h : s.agenda = []) : step s = seqTurn s := by simp [step, nextTurn, h]

theorem step_of_cons {s : State} {turn : Turn} {rest : List Turn} (h : s.agenda = turn :: rest) :
    step s = takeTurn { s with agenda := rest } turn := by simp [step, nextTurn, h]

/-- The sequencer has a step exactly when BUSY and FAULT = 0 (44_sequencer.md R192). -/
theorem seqEnabled_iff (e : Engine) : e.seqEnabled = true ↔ e.busy = true ∧ e.fault = .noFault := by
  simp [Engine.seqEnabled]

/-- In a rest phase, or halted, the sequencer's turn changes nothing (R190, R238). -/
theorem seqTurn_of_disabled {s : State} (h : s.eng.busy = false ∨ s.eng.fault ≠ .noFault) : seqTurn s = .next s := by
  have : ¬ s.eng.seqEnabled = true := by
    rw [seqEnabled_iff]; rintro ⟨h1, h2⟩; rcases h with h | h <;> simp_all
  rw [seqTurn, if_neg this]

/-- The micro-operation of each phase (R104, R192), in a state with FAULT = 0. -/
theorem seqTurn_of_noFault {s : State} (hf : s.eng.fault = .noFault) :
    seqTurn s =
      match s.eng.phase with
      | .idle | .done | .error => .next s
      | .chklen => execChklen s
      | .plan => execPlan s
      | .hinit => execHinit s
      | .padblk => execPadblk s
      | .wload => execWload s
      | .wexp => execWexp s
      | .rinit => execRinit s
      | .round => execRound s
      | .hacc => execHacc s := by
  unfold seqTurn
  rw [decodeMicro_phaseCode]
  have hb : s.eng.seqEnabled = s.eng.busy := by simp [Engine.seqEnabled, hf]
  rw [hb]; unfold Engine.busy
  cases s.eng.phase <;> rfl

/-- Where the sequencer is enabled it performs the micro-operation it decodes from PHASE. -/
theorem seqTurn_runs {s : State} {i : Instr} (hb : s.eng.busy = true) (hf : s.eng.fault = .noFault)
    (hi : decodeMicro s.eng.phase.code = .ok i) : seqTurn s = exec i s := by
  rw [seqTurn, if_pos ((seqEnabled_iff _).mpr ⟨hb, hf⟩), hi]

end Sys2Proof.Machine
end

