-- ==== Sys2Proof/Laws/Sequencer.lean ====
section
/-! SUPPORT. Everything the sequencer's turn can do from a state that meets the invariant, and everything a step can do. -/

namespace Sys2Proof.Machine

/-- The effects the sequencer's turn can have on the engine, each with the guard under which it happens
(44_sequencer.md R191, R192). -/
inductive MicroEffect (c : Config) (e : Engine) : Engine → Prop
  /-- No step: a rest phase or a halted engine. -/
  | same : e.busy = false ∨ e.fault ≠ .noFault → MicroEffect c e e
  /-- CHKLEN accepts the length. -/
  | plan : e.fault = .noFault → e.phase = .chklen → e.len.toNat < 2 ^ 61 → MicroEffect c e { e with phase := .plan }
  /-- CHKLEN rejects the length. -/
  | tooLarge : e.fault = .noFault → e.phase = .chklen → 2 ^ 61 ≤ e.len.toNat →
      MicroEffect c e { e with errcode := .inputTooLarge, phase := .error }
  /-- PLAN. -/
  | hinit : e.fault = .noFault → e.phase = .plan →
      MicroEffect c e { e with plen := ⟨paddedLength e.len, true⟩, off := ⟨0, true⟩, phase := .hinit }
  /-- HINIT. -/
  | padblk : e.fault = .noFault → e.phase = .hinit → MicroEffect c e { e with h := putAll IV, phase := .padblk }
  /-- PADBLK reads a whole block. -/
  | wload (v : Vector Byte 64) : e.fault = .noFault → e.phase = .padblk →
      (∀ j (h : j < 64), padByte c e (e.off.value.toNat + j) = .ok v[j]) →
      MicroEffect c e { e with blk := putAll v, t := 0, phase := .wload }
  /-- PADBLK faults at its first bad byte. -/
  | missing (j : Nat) (f : FaultCode) : e.fault = .noFault → e.phase = .padblk → f ≠ .noFault → j < 64 →
      e.off.value.toNat + j < e.len.toNat → engineRead c e.msg (e.off.value.toNat + j) = .error f →
      (∀ i, i < j → ∃ b, padByte c e (e.off.value.toNat + i) = .ok b) → MicroEffect c e { e with fault := f }
  /-- WLOAD. -/
  | word (h : e.t.toNat < 16) : e.fault = .noFault → e.phase = .wload →
      MicroEffect c e { e with
        w := e.w.set e.t.toNat ⟨blockWord (values e.blk) e.t.toNat h, true⟩
        t := if e.t = 15 then 16 else e.t + 1
        phase := if e.t = 15 then .wexp else e.phase }
  /-- WEXP. -/
  | expand (n : Nat) (hn : n < 48) : e.fault = .noFault → e.phase = .wexp → e.t.toNat = n + 16 →
      MicroEffect c e { e with
        w := e.w.set (n + 16) ⟨expandWord e.w[n].value e.w[n + 1].value e.w[n + 9].value e.w[n + 14].value, true⟩
        t := if e.t = 63 then 0 else e.t + 1
        phase := if e.t = 63 then .rinit else e.phase }
  /-- RINIT. -/
  | rinit : e.fault = .noFault → e.phase = .rinit →
      MicroEffect c e { e with r := putAll (values e.h), t := 0, phase := .round }
  /-- ROUND. -/
  | round : e.fault = .noFault → e.phase = .round →
      MicroEffect c e { e with
        r := putAll (roundStep (K[e.t.toNat]'(by have := e.t.isLt; omega))
          (e.w[e.t.toNat]'(by have := e.t.isLt; omega)).value (values e.r))
        t := if e.t = 63 then 0 else e.t + 1
        phase := if e.t = 63 then .hacc else e.phase }
  /-- HACC. -/
  | hacc : e.fault = .noFault → e.phase = .hacc →
      MicroEffect c e { e with
        h := putAll (addLanes (values e.h) (values e.r))
        off := ⟨e.off.value + 64, true⟩
        phase := if e.off.value.toNat + 64 < e.plen.value.toNat then .padblk else .done }

/-- R193 (b) in every phase but DONE, where a WRLEN may have changed LEN since the call. -/
theorem Engine.Inv.planned {c : Config} {e : Engine} (h : e.Inv c) (hd : e.phase ≠ .done) : e.Planned := fun hb =>
  ⟨(h.plen_planned ⟨hb.1, by
      have h10 := hb.2
      cases hp : e.phase <;> simp_all [Phase.code]⟩).2, (h.off_aligned hb).2⟩

/-- Under the invariant every byte of the block that PADBLK builds has a meaning. -/
theorem Engine.Inv.padDefined {c : Config} {e : Engine} (h : e.Inv c) (hp : e.phase = .padblk) :
    e.padDefined = true := by
  have b39 : e.phase.between 3 9 := by simp [hp, Phase.between, Phase.code]
  have b49 : e.phase.between 4 9 := by simp [hp, Phase.between, Phase.code]
  have h1 := (h.plen_planned b39).2
  have h2 := h.off_room b49
  rw [padDefined_iff]
  unfold padLen at h1
  omega

/-- Everything the sequencer's turn can do from a state that meets the invariant: it touches the engine alone. -/
theorem seqTurn_outcome {s : State} (h : s.Inv) :
    ∃ e, seqTurn s = .next { s with eng := e } ∧ MicroEffect s.config s.eng e := by
  by_cases hf : s.eng.fault = .noFault
  · rw [seqTurn_of_noFault hf]
    split
    · next hp => exact ⟨_, rfl, .same (.inl ((busy_eq_false_iff _).mpr (by simp [hp])))⟩
    · next hp => exact ⟨_, rfl, .same (.inl ((busy_eq_false_iff _).mpr (by simp [hp])))⟩
    · next hp => exact ⟨_, rfl, .same (.inl ((busy_eq_false_iff _).mpr (by simp [hp])))⟩
    · next hp =>
      rcases Nat.lt_or_ge s.eng.len.toNat (2 ^ 61) with hl | hl
      · exact ⟨_, execChklen_of_lt hl, .plan hf hp hl⟩
      · exact ⟨_, execChklen_of_ge hl, .tooLarge hf hp hl⟩
    · next hp =>
      exact ⟨_, execPlan_of_lt (h.len_checked (by simp [hp, Phase.between, Phase.code])), .hinit hf hp⟩
    · next hp => exact ⟨_, execHinit_eq s, .padblk hf hp⟩
    · next hp =>
      rcases execPadblk_cases (h.padDefined hp) with ⟨v, hv, he⟩ | ⟨j, f, hj, hl, hr, hlow, he⟩
      · exact ⟨_, he, .wload v hf hp hv⟩
      · rw [raiseFault_of_noFault f hf] at he
        refine ⟨_, he, .missing j f hf hp ?_ hj hl hr hlow⟩
        rintro rfl
        rw [engineRead_eq] at hr
        split at hr
        · cases hr
        · cases hm : Memory.read s.eng.msg (s.eng.off.value.toNat + j) <;> rw [hm] at hr <;> cases hr
    · next hp =>
      have ht : s.eng.t.toNat < 16 := by have := h.t_range; simp [hp, tInRange] at this; omega
      exact ⟨_, execWload_of_lt ht, .word ht hf hp⟩
    · next hp =>
      have ht : 16 ≤ s.eng.t.toNat := by have := h.t_range; simpa [hp, tInRange] using this
      have hlt := s.eng.t.isLt
      have hn : s.eng.t.toNat = (s.eng.t.toNat - 16) + 16 := by omega
      exact ⟨_, execWexp_of_ge (by omega) hn, .expand _ (by omega) hf hp hn⟩
    · next hp => exact ⟨_, execRinit_eq s, .rinit hf hp⟩
    · next hp => exact ⟨_, execRound_eq s, .round hf hp⟩
    · next hp =>
      have ho : s.eng.off.value.toNat + 64 < 2 ^ 64 := by
        have h1 := h.off_room (by simp [hp, Phase.between, Phase.code])
        have h2 := (h.plen_legal (by simp [hp, Phase.between, Phase.code])).2.2
        omega
      exact ⟨_, execHacc_of_lt ho, .hacc hf hp⟩
  · exact ⟨_, seqTurn_of_disabled (.inr hf), .same (.inr hf)⟩

/-- Everything a step can do where it goes on: a host command, the reset event, or the sequencer's turn. -/
theorem step_cases {s t : State} (h : s.Inv) (hs : step s = .next t) :
    t.config = s.config ∧ t.agenda = s.agenda.tail ∧
      ((∃ w rest, s.agenda = .command w :: rest ∧ CommandEffect s.config s.eng t.eng ∧
          ∃ r, t.replies = s.replies ++ [r]) ∨
       (∃ rest, s.agenda = .reset :: rest ∧ t.eng = Engine.reset ∧ t.replies = s.replies) ∨
       ((s.agenda = [] ∨ ∃ rest, s.agenda = .seq :: rest) ∧ MicroEffect s.config s.eng t.eng ∧
          t.replies = s.replies)) := by
  cases ha : s.agenda with
  | nil =>
    obtain ⟨e, he, hm⟩ := seqTurn_outcome h
    rw [step_of_nil ha, he] at hs
    cases hs
    exact ⟨rfl, ha, .inr (.inr ⟨.inl rfl, hm, rfl⟩)⟩
  | cons turn rest =>
    rw [step_of_cons ha] at hs
    cases turn with
    | command w =>
      obtain ⟨u, r, he, hc, hag, hr, hm⟩ := commandTurn_outcome w { s with agenda := rest }
      rw [takeTurn, he] at hs
      cases hs
      exact ⟨hc, hag, .inl ⟨w, rest, rfl, hm, r, hr⟩⟩
    | reset =>
      cases hs
      exact ⟨rfl, rfl, .inr (.inl ⟨rest, rfl, rfl, rfl⟩)⟩
    | seq =>
      obtain ⟨e, he, hm⟩ := seqTurn_outcome (s := { s with agenda := rest }) h
      rw [takeTurn, he] at hs
      cases hs
      exact ⟨rfl, rfl, .inr (.inr ⟨.inr ⟨rest, rfl⟩, hm, rfl⟩)⟩

end Sys2Proof.Machine
end

