-- ==== Sys2Proof/Tests/Slice0.lean ====
section
/-! SUPPORT. Checks of the model against the vectors of 95_test_vectors.md, and a witness for the hypotheses of each
statement. -/

namespace Sys2Proof.Machine.Tests

set_option Elab.async false

/-! ### Helpers -/

/-- The next state of an outcome, if it has one. -/
def next? : Host.Outcome State Fault Refusal → Option State
  | .next s => some s
  | .fault _ => none
  | .refused _ => none

/-- What `f` sees of the engine after the outcome. -/
def engAfter {α : Type} (o : Host.Outcome State Fault Refusal) (f : Engine → α) : Option α :=
  (next? o).map fun s => f s.eng

/-- The last response after the outcome. -/
def replyAfter (o : Host.Outcome State Fault Refusal) : Option Response := (next? o).bind fun s => s.replies.getLast?

/-- An instance of capacity `last + 1` with this engine and agenda. -/
def mk (last : DWord) (e : Engine) (agenda : List Turn) : State := ⟨⟨last⟩, e, agenda, []⟩

/-- A state that runs `e`, capacity 2^64, no host action pending. -/
def at0 (e : Engine) : State := mk 0xFFFFFFFFFFFFFFFF e []

/-- A message memory holding `n` bytes 0x61 from address 0 on. -/
def as (n : Nat) : Memory := (List.range n).map fun i => (i, 0x61)

/-- An engine in phase `p` at T and OFF, with LEN, its planned PLEN and MSG; every register written, H and R the initial
hash words, BLK the block of the empty message. -/
def demo (p : Phase) (t : BitVec 6) (off len : DWord) (msg : Memory) : Engine where
  r := putAll IV
  h := putAll IV
  w := Vector.replicate 64 ⟨0, true⟩
  blk := putAll (blockOf (pad []) 0)
  len := len
  plen := ⟨paddedLength len, true⟩
  off := ⟨off, true⟩
  phase := p
  t := t
  errcode := if p = .error then .inputTooLarge else .noError
  fault := .noFault
  msg := msg

/-- The conditions of the invariant on the free parts of `demo`. -/
def demoOk (last : DWord) (p : Phase) (t : BitVec 6) (off len : DWord) (msg : Memory) : Bool :=
  tInRange p t && decide (len.toNat < 2 ^ 61) && decide (off.toNat % 64 = 0) && decide (p = .hinit → off = 0) &&
    decide (p ≠ .done → off.toNat + 64 ≤ (paddedLength len).toNat) && decide (p = .done → off = paddedLength len) &&
    decide (Memory.wf msg) && decide (∀ c ∈ msg, c.1 < (Config.mk last).msgCapacity)

/-- The states of this file that meet the invariant. -/
theorem demo_inv {last : DWord} {p : Phase} {t : BitVec 6} {off len : DWord} {msg : Memory} {agenda : List Turn}
    (h : demoOk last p t off len msg = true) : (mk last (demo p t off len msg) agenda).Inv := by
  simp only [demoOk, Bool.and_eq_true, decide_eq_true_eq] at h
  obtain ⟨⟨⟨⟨⟨⟨⟨ht, hl⟩, hal⟩, hh⟩, hroom⟩, hd⟩, hwf⟩, hcap⟩ := h
  have hp := paddedLength_toNat hl
  refine
    { msg_canonical := hwf
      msg_in_range := fun a b hr => hcap _ (Memory.mem_of_read hr)
      errcode_iff := ?_
      t_range := ht
      len_checked := fun _ => hl
      plen_planned := fun _ => ⟨rfl, hp⟩
      off_aligned := fun _ => ⟨rfl, hal⟩
      off_start := hh
      off_room := ?_
      done_off := fun h => ⟨rfl, hd h⟩
      plen_legal := ?_
      h_written := fun _ i => by simp [mk, demo]
      blk_written := fun _ i => by simp [mk, demo]
      w_prefix_written := fun _ i _ => by simp [mk, demo]
      w_written := fun _ i => by simp [mk, demo]
      r_written := fun _ i => by simp [mk, demo] }
  · simp [mk, demo]
  · rintro ⟨_, h9⟩
    refine hroom ?_
    rintro rfl
    exact absurd h9 (by show ¬ (10 : Nat) ≤ 9; decide)
  · intro _
    simp only [mk, demo, hp]
    omega

/-! ### WellFormed: the one check of the table, and an ill-formed term it refuses -/

theorem test_wf_refuses_index_32 : Instr.wf (.rddig 32) = false := by decide
theorem test_wf_takes_index_31 : Instr.wf (.rddig 31) = true := by decide

/-! ### Decode (V18, V19; 30_encoding.md R101, R104, R108) -/

theorem test_decode_wrmsg : decodeCommand 0x01ffffffffffffffffff = .ok (.wrmsg 0xFFFFFFFFFFFFFFFF 0xFF) := by decide +kernel
theorem test_decode_wrmsg_55 : decodeCommand 0x01000000000000003771 = .ok (.wrmsg 55 0x71) := by decide +kernel
theorem test_decode_wrlen : decodeCommand 0x02200000000000000000 = .ok (.wrlen 0x2000000000000000) := by decide +kernel
theorem test_decode_start : decodeCommand 0x03000000000000000000 = .ok .start := by decide +kernel
theorem test_decode_rdstat : decodeCommand 0x04000000000000000000 = .ok .rdstat := by decide +kernel
theorem test_decode_rddig : decodeCommand 0x05000000000000001f00 = .ok (.rddig 31) := by decide +kernel
theorem test_decode_micro :
    [1, 2, 3, 4, 5, 6, 7, 8, 9].map decodeMicro =
      [.ok .chklen, .ok .plan, .ok .hinit, .ok .padblk, .ok .wload, .ok .wexp, .ok .rinit, .ok .round, .ok .hacc] := by
  decide +kernel
theorem test_decode_rest_codes :
    [0, 10, 11, 12, 15].map decodeMicro =
      [.error .restPhase, .error .restPhase, .error .restPhase, .error .reservedPhase, .error .reservedPhase] := by
  decide +kernel

/-- V19, in its order. -/
theorem test_decode_illegal :
    [0x00000000000000000000, 0x06000000000000000000, 0xffffffffffffffffffff, 0x03000000000000000001,
      0x03000000000000000100, 0x02000000000000000301, 0x05000000000000002000, 0x05000000000000000001,
      0x04000000000000000100].map decodeCommand =
    [.error .unassignedOpcode, .error .unassignedOpcode, .error .unassignedOpcode, .error .operandBNotZero,
      .error .operandANotZero, .error .operandBNotZero, .error .digestIndexTooLarge, .error .operandBNotZero,
      .error .operandANotZero] := by decide +kernel

/-- V18: the bytes of `WRMSG 2, 0x63` as a platform sends them. -/
theorem test_decode_bytes :
    decodeBytes [0x01, 0, 0, 0, 0, 0, 0, 0, 0x02, 0x63, 0xAA] = .ok (.wrmsg 2 0x63, [0xAA]) := by decide +kernel
theorem test_encode_wrmsg : encode (.wrmsg 2 0x63) = .hc 0x01000000000000000263 := by decide +kernel

/-- Every row of opcode_table.json runs as the first operation after reset. -/
theorem test_every_row_runs :
    ([(80, 0x01000000000000000000), (80, 0x02000000000000000000), (80, 0x03000000000000000000),
      (80, 0x04000000000000000000), (80, 0x05000000000000000000), (8, 1), (8, 2), (8, 3), (8, 4), (8, 5), (8, 6),
      (8, 7), (8, 8), (8, 9)] : List (Nat × Nat)).all
      (fun c => (next? (step (State.reset.withFetchWord c.1 c.2))).isSome) = true := by decide +kernel

/-! ### Functions of the datapath (V1 to V5, V8, V12, V16) -/

theorem test_rotr_wraps_low_bit : (rotr 1 1, rotr 0x12345678 7, shr 0x80000000 3) = (0x80000000, 0xf02468ac, 0x10000000) := by
  decide +kernel
theorem test_ssig : (ssig0 0x12345678, ssig1 0x12345678) = (0xe7fce6ee, 0xa1f78649) := by decide +kernel
theorem test_bsig : (bsig0 0x6a09e667, bsig1 0x510e527f) = (0xce20b47e, 0x3587272b) := by decide +kernel
theorem test_ch : ch 0x510e527f 0x9b05688c 0x1f83d9ab = 0x1f85c98c := by decide +kernel
theorem test_maj : maj 0x6a09e667 0xbb67ae85 0x3c6ef372 = 0x3a6fe667 := by decide +kernel
theorem test_compress_zero_block :
    compress IV (Vector.replicate 64 0) =
      #v[0xda5698be, 0x17b9b469, 0x62335799, 0x779fbeca, 0x8ce5d491, 0xc0d26243, 0xbafef9ea, 0x1837a9d8] := by
  decide +kernel
theorem test_hex : hex64 [0x0a, 0xf0, 0x00, 0xe3] = ['0', 'a', 'f', '0', '0', '0', 'e', '3'] := by decide +kernel

/-- P4, P5, P6 and V17: the last answers of WAIT, and an answer during a call. -/
theorem test_read_poll :
    [0x0000014B, 0x00020093, 0x00040094, 0x0000002A, 0x3F000016, 0x00000000].map readPoll =
      [.inputTooLarge, .void, .void, .digest, .running, .idle] := by decide +kernel

/-! ### One step of each instruction -/

/-- P2. -/
theorem test_wrmsg_stores :
    (engAfter (exec (.wrmsg 0 0x61) State.reset) (fun e => (Memory.read e.msg 0, Memory.read e.msg 1)),
      replyAfter (exec (.wrmsg 0 0x61) State.reset)) = (some (some 0x61, none), some .ack) := by decide +kernel
/-- R211 at address MSG_CAPACITY; STATUS by R103. -/
theorem test_wrmsg_out_of_range :
    (engAfter (exec (.wrmsg 3 0x61) (mk 2 Engine.reset [])) Engine.status,
      replyAfter (exec (.wrmsg 3 0x61) (mk 2 Engine.reset []))) = (some 0x00050080, some .nak) := by decide +kernel

/-- P4: WRLEN takes a length that CHKLEN will reject. -/
theorem test_wrlen_takes_any :
    engAfter (exec (.wrlen 0x2000000000000000) State.reset) (fun e => (e.len, e.status)) =
      some (0x2000000000000000, 0) := by decide +kernel
/-- R212 during a call: BusyAccess, LEN stays. -/
theorem test_wrlen_busy :
    engAfter (exec (.wrlen 5) (at0 (demo .hinit 0 0 0 []))) (fun e => (e.len, e.status)) = some (0, 0x00020093) := by
  decide +kernel

/-- V17. -/
theorem test_start_goes_to_chklen : engAfter (exec .start State.reset) Engine.status = some 0x00000011 := by decide +kernel
/-- R213, R33: START leaves ERROR with ERRCODE 0. -/
theorem test_start_leaves_error :
    engAfter (exec .start (at0 (demo .error 0 0 0 []))) (fun e => (e.phase, e.errcode)) = some (.chklen, .noError) := by
  decide +kernel

/-- V17, 20 steps into a call. -/
theorem test_rdstat_in_wexp :
    replyAfter (exec .rdstat (at0 (demo .wexp 16 0 0 []))) = some (.data32 0x10000016) := by decide +kernel
/-- V19: STATUS after an illegal word. -/
theorem test_rdstat_halted :
    replyAfter (exec .rdstat (at0 { Engine.reset with fault := .illegalCommand })) = some (.data32 0x00010080) := by
  decide +kernel

/-- The hash value of V11. -/
def abcHash : Vector Word 8 :=
  #v[0xba7816bf, 0x8f01cfea, 0x414140de, 0x5dae2223, 0xb00361a3, 0x96177a9c, 0xb410ff61, 0xf20015ad]

/-- V12. -/
theorem test_rddig_bytes :
    [0, 1, 3, 4, 29, 31].map (fun i => replyAfter (exec (.rddig i)
      (at0 { demo .done 0 64 3 [] with h := putAll abcHash }))) =
    [0xba, 0x78, 0xbf, 0x8f, 0x00, 0xad].map (fun b => some (.data8 b)) := by decide +kernel
/-- R215, R239: outside DONE, and an index out of range. -/
theorem test_rddig_faults :
    (engAfter (exec (.rddig 31) State.reset) Engine.status, engAfter (exec (.rddig 32) State.reset) Engine.status) =
      (some 0x00030080, some 0x00010080) := by decide +kernel

/-- V9. -/
theorem test_chklen_accepts :
    engAfter (exec .chklen (at0 { demo .chklen 0 0 0 [] with len := 0x1FFFFFFFFFFFFFFF })) Engine.status =
      some 0x00000012 := by decide +kernel
theorem test_chklen_rejects :
    engAfter (exec .chklen (at0 { demo .chklen 0 0 0 [] with len := 0x2000000000000000 })) Engine.status =
      some 0x0000014B := by decide +kernel

/-- V6. -/
theorem test_plan_boundary :
    [55, 56, 119, 120].map (fun l => engAfter (exec .plan (at0 { Engine.reset with len := l, phase := .plan }))
      (fun e => (e.plen, e.off, e.phase))) =
    [64, 128, 128, 192].map (fun p => some (⟨p, true⟩, ⟨0, true⟩, .hinit)) := by decide +kernel
theorem test_plan_longest :
    engAfter (exec .plan (at0 { Engine.reset with len := 0x1FFFFFFFFFFFFFFF, phase := .plan })) (fun e => e.plen.value) =
      some 0x2000000000000040 := by decide +kernel

/-- V20. -/
theorem test_hinit :
    engAfter (exec .hinit (at0 { Engine.reset with phase := .hinit })) (fun e => (values e.h, e.phase)) =
      some (#v[0x6a09e667, 0xbb67ae85, 0x3c6ef372, 0xa54ff53a, 0x510e527f, 0x9b05688c, 0x1f83d9ab, 0x5be0cd19],
        .padblk) := by decide +kernel

/-- V7, L = 55: the last row of the block. -/
theorem test_padblk_55 :
    engAfter (exec .padblk (at0 (demo .padblk 0 0 55 (as 55)))) (fun e => ((values e.blk).toList.drop 48, e.status)) =
      some ([0x61, 0x61, 0x61, 0x61, 0x61, 0x61, 0x61, 0x80, 0, 0, 0, 0, 0, 0, 0x01, 0xb8], 0x00000015) := by
  decide +kernel
/-- V7, L = 2^61 - 1: the last block. -/
theorem test_padblk_longest :
    engAfter (exec .padblk (at0 (demo .padblk 0 0x2000000000000000 0x1FFFFFFFFFFFFFFF [])))
      (fun e => (values e.blk).toList.drop 54) =
      some [0, 0, 0xff, 0xff, 0xff, 0xff, 0xff, 0xff, 0xff, 0xf8] := by decide +kernel

/-- V20, T = 5: big-endian. -/
theorem test_wload_big_endian :
    engAfter (exec .wload (at0 { demo .wload 5 0 0 [] with
      blk := putAll (Vector.ofFn fun j : Fin 64 => BitVec.ofNat 8 (j.val - 19)) }))
      (fun e => (e.w[5].value, e.w[4].value, e.t, e.phase)) = some (0x01020304, 0, 6, .wload) := by decide +kernel
/-- V20, T = 15: on to WEXP. -/
theorem test_wload_last :
    engAfter (exec .wload (at0 { demo .wload 15 0 0 [] with blk := (putAll (blockOf (pad []) 0)).set 63 ⟨0x18, true⟩ }))
      (fun e => (e.w[15].value, e.t, e.phase)) = some (0x00000018, 16, .wexp) := by decide +kernel

/-- V11: W[17] = ssig1(00000018) with W[15] = 18, every other term 0. -/
theorem test_wexp_17 :
    engAfter (exec .wexp (at0 { demo .wexp 17 0 0 [] with w := (Vector.replicate 64 ⟨0, true⟩).set 15 ⟨0x18, true⟩ }))
      (fun e => (e.w[17].value, e.t)) = some (0x000f0000, 18) := by decide +kernel
/-- V16: the all-ones block, W[18]. -/
theorem test_wexp_wraps :
    engAfter (exec .wexp (at0 { demo .wexp 18 0 0 [] with
      w := Vector.ofFn fun j : Fin 64 => if j.val < 16 then ⟨0xFFFFFFFF, true⟩ else ⟨0x203ffffc, true⟩ }))
      (fun e => e.w[18].value) = some 0x20099be4 := by decide +kernel

/-- V20. -/
theorem test_rinit :
    engAfter (exec .rinit (at0 { demo .rinit 0 0 0 [] with r := Vector.replicate 8 Slot.unwritten }))
      (fun e => (values e.r, values e.h, e.t, e.phase)) = some (IV, IV, 0, .round) := by decide +kernel

/-- V11, round 0. -/
theorem test_round_0 :
    engAfter (exec .round (at0 { demo .round 0 0 3 [] with
      w := (Vector.replicate 64 ⟨0, true⟩).set 0 ⟨0x61626380, true⟩ })) (fun e => (values e.r, e.t, e.phase)) =
      some (#v[0x5d6aebcd, 0x6a09e667, 0xbb67ae85, 0x3c6ef372, 0xfa2a4622, 0x510e527f, 0x9b05688c, 0x1f83d9ab],
        1, .round) := by decide +kernel
/-- V11, round 63, with W[63] = 12b1edeb. -/
theorem test_round_63 :
    engAfter (exec .round (at0 { demo .round 63 0 3 [] with
      r := putAll #v[0xd39a2165, 0x04d24d6c, 0xb85e2ce9, 0xb6ae8fff, 0xfb121210, 0x948d25b6, 0x961f4894, 0xb21bad3d]
      w := (Vector.replicate 64 ⟨0, true⟩).set 63 ⟨0x12b1edeb, true⟩ })) (fun e => (values e.r, e.t, e.phase)) =
      some (#v[0x506e3058, 0xd39a2165, 0x04d24d6c, 0xb85e2ce9, 0x5ef50f24, 0xfb121210, 0x948d25b6, 0x961f4894],
        0, .hacc) := by decide +kernel

/-- V20, the last block. -/
theorem test_hacc_last :
    engAfter (exec .hacc (at0 { demo .hacc 0 0 3 [] with
      r := putAll #v[0x506e3058, 0xd39a2165, 0x04d24d6c, 0xb85e2ce9, 0x5ef50f24, 0xfb121210, 0x948d25b6, 0x961f4894] }))
      (fun e => (values e.h, e.off.value, e.phase)) = some (abcHash, 64, .done) := by decide +kernel
/-- V20, not the last block; R after round 63 from V13. -/
theorem test_hacc_more :
    engAfter (exec .hacc (at0 { demo .hacc 0 0 56 [] with
      r := putAll #v[0x1bdc6f6f, 0x86126910, 0xf6f443f8, 0xbcfce922, 0x25d2430a, 0x2fc08f85, 0xacc75916, 0x962d8621] }))
      (fun e => (values e.h, e.off.value, e.phase)) =
      some (#v[0x85e655d6, 0x417a1795, 0x3363376a, 0x624cde5c, 0x76e09589, 0xcac5f811, 0xcc4b32c1, 0xf20e533a],
        64, .padblk) := by decide +kernel

/-- V19: an illegal word raises IllegalCommand and is answered Nak. -/
theorem test_illegal_word :
    (engAfter (step (mk 0 Engine.reset [.command 0x06000000000000000000])) Engine.status,
      replyAfter (step (mk 0 Engine.reset [.command 0x06000000000000000000]))) = (some 0x00010080, some .nak) := by
  decide +kernel
/-- P6: a message byte that was never written. -/
theorem test_padblk_unwritten :
    engAfter (exec .padblk (at0 (demo .padblk 0 0 2 (as 1)))) Engine.status = some 0x00040094 := by decide +kernel

/-! ### Witnesses: states and operands that meet the hypotheses of each statement -/

/-- The agenda that issues one command word. -/
def cmd (w : CommandWord) : List Turn := [.command w]

/-- DecodeEncodeGivesBack: the boundary operand of RDDIG and the widest of WRMSG. -/
theorem test_witness_encode_wf :
    Instr.wf (.rddig 31) = true ∧ Instr.wf (.wrmsg 0xFFFFFFFFFFFFFFFF 0xFF) = true ∧ Instr.wf .hacc = true := by decide

/-- EncodeDecodeGivesBack, in both formats. -/
theorem test_witness_decode_ok :
    decode (.hc 0x05000000000000001f00) = .ok (.rddig 31) ∧ decode (.mo 9) = .ok .hacc := by decide +kernel

/-- CommandWordSelectsItsRow: a word that decodes, and a row that it selects. -/
theorem test_witness_row :
    decodeCommand 0x02ffffffffffffffff00 = .ok (.wrlen 0xFFFFFFFFFFFFFFFF) ∧
      ∃ r ∈ commandRows, r.selects 0x02ffffffffffffffff00 = true ∧ r.mnemonic = "WRLEN" := by decide +kernel

/-- StepRunsTheDecodedInstruction: a command, the sequencer's turn, and an empty agenda. -/
theorem test_witness_step_runs :
    decodeCommand 0x03000000000000000000 = .ok .start ∧
    (mk 0 Engine.reset (cmd 0x03000000000000000000)).agenda = .command 0x03000000000000000000 :: [] ∧
    (mk 0 (demo .round 63 0 0 []) [.seq]).agenda = .seq :: [] ∧ (mk 0 (demo .round 63 0 0 []) []).agenda = [] ∧
    (demo .round 63 0 0 []).busy = true ∧ (demo .round 63 0 0 []).fault = .noFault ∧
    decodeMicro (demo .round 63 0 0 []).phase.code = .ok .round := by decide +kernel

/-- IllegalWordRaisesIllegalCommand: RDDIG with index 32, whatever FAULT holds. -/
theorem test_witness_illegal :
    (∀ r ∈ commandRows, (0x05000000000000002000#80) &&& r.mask ≠ r.pattern) ∧ Engine.reset.fault = .noFault ∧
    { Engine.reset with fault := .msgRange }.fault ≠ .noFault := by decide +kernel

/-- RestPhasesHaveNoStep: each rest phase; ResetEventIsTotal: a reset first on the agenda. -/
theorem test_witness_rest :
    (at0 (demo .idle 0 0 0 [])).eng.phase = .idle ∧ (at0 (demo .done 0 64 0 [])).eng.phase = .done ∧
    (at0 (demo .error 0 0 0 [])).eng.phase = .error ∧ (at0 (demo .error 0 0 0 [])).agenda = [] ∧
    (mk 0 (demo .idle 0 0 0 []) [.seq, .reset]).agenda = .seq :: [.reset] ∧
    (mk 0 (demo .round 5 0 0 []) [.reset]).agenda = .reset :: [] := by decide

/-- FaultedEngineIsHalted and HaltedCommandsAnswerNak: a halted engine, RDSTAT and another word. -/
theorem test_witness_halted :
    { demo .padblk 0 0 2 [] with fault := .msgUnwritten }.fault ≠ .noFault ∧
    decodeCommand 0x04000000000000000000 = .ok .rdstat ∧ decodeCommand 0x03000000000000000000 ≠ .ok .rdstat := by
  decide +kernel

/-- WrmsgWritesOneByte, WrlenSetsTheLength, StartBeginsACall: during a call; outside one, with the last address of
message memory and the first beyond it (capacity 3). -/
theorem test_witness_commands :
    (demo .plan 0 0 0 []).fault = .noFault ∧ (demo .plan 0 0 0 []).busy = true ∧
    (demo .idle 0 0 0 []).fault = .noFault ∧ (demo .idle 0 0 0 []).busy = false ∧
    (2 : DWord).toNat < (Config.mk 2).msgCapacity ∧ (Config.mk 2).msgCapacity ≤ (3 : DWord).toNat := by decide

/-- RddigReturnsADigestByte: in DONE; outside it with the last index; an index above 31. -/
theorem test_witness_rddig :
    (demo .done 0 64 0 []).fault = .noFault ∧ (demo .done 0 64 0 []).phase = .done ∧
    (demo .idle 0 0 0 []).phase ≠ .done ∧ (31 : DWord).toNat ≤ 31 ∧ 31 < (32 : DWord).toNat := by decide

/-- PollTellsTheOutcome: an engine that is not halted. -/
theorem test_witness_poll : (demo .done 0 64 0 []).fault = .noFault := rfl

/-- EveryCommandReturnsOneResponse: a command that is answered, and a turn that is none. -/
theorem test_witness_response :
    (mk 0 Engine.reset (cmd 0)).agenda = .command 0 :: [] ∧ (mk 0 Engine.reset []).agenda = [] ∧
    next? (step (mk 0 Engine.reset [])) = some (mk 0 Engine.reset []) := by decide +kernel

/-- ChklenTestsTheLength, PlanComputesThePaddedLength, PaddedLengthArithmetic, PaddingProceduresAgree: both sides of
2^61, and of 55 modulo 64. -/
theorem test_witness_lengths :
    (0x1FFFFFFFFFFFFFFF : DWord).toNat < 2 ^ 61 ∧ 2 ^ 61 ≤ (0x2000000000000000 : DWord).toNat ∧
    (55 < 2 ^ 61 ∧ 55 % 64 ≤ 55) ∧ (56 < 2 ^ 61 ∧ 56 ≤ 56 % 64) ∧ ([] : List Byte).length < 2 ^ 61 := by decide

/-- PadblkFillsTheBlock: three written bytes; the block has message, marker, zeros and length field. -/
theorem test_witness_padblk_fills :
    let e := demo .padblk 0 0 3 (as 3)
    e.len.toNat + 9 ≤ e.plen.value.toNat ∧ e.off.value.toNat + 64 ≤ e.plen.value.toNat ∧
    (∀ p, p < 64 → e.off.value.toNat ≤ p → p < e.len.toNat → p < (Config.mk 2).msgCapacity ∧ Memory.read e.msg p ≠ none) ∧
    e.plen.value.toNat - 8 = 56 := by decide +kernel

/-- PadblkFaultsAtTheFirstBadByte: byte 1 out of range (capacity 1), and byte 1 unwritten (capacity 2). -/
theorem test_witness_padblk_faults :
    let e := demo .padblk 0 0 2 (as 1)
    e.fault = .noFault ∧ e.len.toNat + 9 ≤ e.plen.value.toNat ∧ e.off.value.toNat + 64 ≤ e.plen.value.toNat ∧
    e.off.value.toNat + 1 < e.len.toNat ∧
    (∀ i, i < 1 → e.off.value.toNat + i < (Config.mk 0).msgCapacity ∧ Memory.read e.msg (e.off.value.toNat + i) ≠ none) ∧
    (Config.mk 0).msgCapacity ≤ e.off.value.toNat + 1 ∧ e.off.value.toNat + 1 < (Config.mk 1).msgCapacity ∧
    Memory.read e.msg (e.off.value.toNat + 1) = none := by decide +kernel

/-- The bytes of `as`. -/
theorem as_bytes : ∀ n, n < 4 → ∀ i, i < n → Memory.read (as n) i = some 0x61 := by decide

/-- A loaded message of `n` bytes 0x61. -/
theorem loaded_as (c : Config) (p : Phase) (t : BitVec 6) (off : DWord) (n : Nat) (hn : n < 4) (hc : n ≤ c.msgCapacity) :
    (demo p t off (BitVec.ofNat 64 n) (as n)).Loaded c (List.replicate n 0x61) where
  len_eq := by simp only [demo, List.length_replicate, BitVec.toNat_ofNat]; omega
  in_range := by simpa using hc
  bytes := by
    intro i b h
    obtain ⟨hi, rfl⟩ := List.getElem?_eq_some_iff.mp h
    rw [List.length_replicate] at hi
    rw [List.getElem_replicate]
    exact as_bytes n hn i hi

/-- PadIsTheWholeBuffer: a loaded message of three bytes, and the last byte of its buffer. -/
theorem test_witness_pad_buffer :
    (demo .padblk 0 0 3 (as 3)).Loaded (Config.mk 2) (List.replicate 3 0x61) ∧
    (demo .padblk 0 0 3 (as 3)).plen.value.toNat = padLen 3 ∧ 63 < padLen 3 :=
  ⟨loaded_as _ _ _ _ 3 (by decide) (by decide), by decide +kernel, by decide +kernel⟩

/-- WloadLoadsABigEndianWord, WexpExtendsTheSchedule, RoundUpdatesAllRegistersAtOnce: the first and the last T of each. -/
theorem test_witness_loops :
    (demo .wload 0 0 0 []).t.toNat = 0 ∧ (demo .wload 15 0 0 []).t.toNat = 15 ∧
    (demo .wexp 16 0 0 []).t.toNat = 0 + 16 ∧ (demo .wexp 63 0 0 []).t.toNat = 47 + 16 ∧
    (demo .round 0 0 0 []).t.toNat = 0 ∧ (demo .round 63 0 0 []).t.toNat = 63 := by decide

/-- ScheduleSigmasBitByBit, RoundFunctionsBitByBit: the bits around the edge of each shift. -/
theorem test_witness_bits : 28 < 32 ∧ 29 < 32 ∧ 21 < 32 ∧ 22 < 32 ∧ 0 < 32 ∧ 31 < 32 := by decide

/-- HaccAddsLanesAndAdvances: not the last block, and the last. -/
theorem test_witness_hacc :
    (demo .hacc 0 0 56 []).off.value.toNat + 64 < 2 ^ 64 ∧
    (demo .hacc 0 0 56 []).off.value.toNat + 64 < (demo .hacc 0 0 56 []).plen.value.toNat ∧
    (demo .hacc 0 64 56 []).off.value.toNat + 64 = (demo .hacc 0 64 56 []).plen.value.toNat := by decide +kernel

/-- HexRendersHighNibbleFirst: the last digit of the alphabet, and a byte at its index. -/
theorem test_witness_hex :
    15 < 16 ∧ "0123456789abcdef".toList[15]? = some 'f' ∧ ([0x0a, 0xf0] : List Byte)[1]? = some 0xf0 := by decide +kernel

/-- PositionsOutsideTheSpecStop: the first position outside, for each clause. -/
theorem test_witness_outside :
    15 < (demo .wload 16 0 0 []).t.toNat ∧ (demo .wexp 15 0 0 []).t.toNat < 16 ∧
    2 ^ 61 ≤ (demo .plan 0 0 0x2000000000000000 []).len.toNat ∧
    { demo .padblk 0 0 56 [] with plen := ⟨64, true⟩ }.plen.value.toNat < 56 + 9 ∧
    (demo .padblk 0 64 0 []).plen.value.toNat < (demo .padblk 0 64 0 []).off.value.toNat + 64 ∧
    2 ^ 64 ≤ (demo .hacc 0 0xFFFFFFFFFFFFFFC0 0 []).off.value.toNat + 64 := by decide +kernel

/-- OnlyItsWritersChangeAState: each changed state of the statement, changed by one of its writers. -/
theorem test_witness_writers :
    engAfter (exec .rinit (at0 { Engine.reset with phase := .rinit })) (fun e => decide (e.r ≠ Engine.reset.r)) = some true ∧
    engAfter (exec .hinit (at0 { Engine.reset with phase := .hinit })) (fun e => decide (e.h ≠ Engine.reset.h)) = some true ∧
    engAfter (exec .wload (at0 Engine.reset)) (fun e => decide (e.w ≠ Engine.reset.w)) = some true ∧
    engAfter (exec .padblk (at0 { Engine.reset with plen := ⟨64, true⟩ })) (fun e => decide (e.blk ≠ Engine.reset.blk)) =
      some true ∧
    engAfter (exec (.wrlen 1) State.reset) (fun e => decide (e.len ≠ 0)) = some true ∧
    engAfter (exec .plan State.reset) (fun e => decide (e.plen ≠ Slot.unwritten ∧ e.off ≠ Slot.unwritten)) = some true ∧
    engAfter (exec .start State.reset) (fun e => decide (e.phase ≠ .idle)) = some true ∧
    engAfter (exec .wload State.reset) (fun e => decide (e.t ≠ 0)) = some true ∧
    engAfter (exec .chklen (at0 { Engine.reset with len := 0x2000000000000000 })) (fun e => decide (e.errcode ≠ .noError)) =
      some true ∧
    engAfter (exec (.rddig 0) State.reset) (fun e => decide (e.fault ≠ .noFault)) = some true ∧
    engAfter (exec (.wrmsg 0 0) State.reset) (fun e => decide (e.msg ≠ [])) = some true := by decide +kernel

/-! ### States that meet the invariant -/

/-- The positions of the clauses of ControlTransferTable, each with the invariant: CHKLEN accepting, PLAN, HINIT, PADBLK
on a readable block and on an unwritten byte, WLOAD at 14 and 15, WEXP at 62 and 63, RINIT, ROUND at 62 and 63, HACC
before the last block and at it. -/
theorem test_witness_positions :
    ([(.chklen, 0, 0, 56), (.plan, 0, 0, 56), (.hinit, 0, 0, 56), (.padblk, 0, 0, 0), (.padblk, 0, 0, 56),
      (.wload, 14, 0, 56), (.wload, 15, 0, 56), (.wexp, 62, 0, 56), (.wexp, 63, 0, 56), (.rinit, 0, 0, 56),
      (.round, 62, 0, 56), (.round, 63, 0, 56), (.hacc, 0, 0, 56), (.hacc, 0, 64, 56), (.idle, 0, 0, 56),
      (.done, 0, 128, 56)] :
      List (Phase × BitVec 6 × DWord × DWord)).all
      (fun c => demoOk 0xFFFFFFFFFFFFFFFF c.1 c.2.1 c.2.2.1 c.2.2.2 [] &&
        (next? (step (at0 (demo c.1 c.2.1 c.2.2.1 c.2.2.2 [])))).isSome) = true := by decide +kernel

/-- The two outcomes of PADBLK among them. -/
theorem test_witness_padblk_outcomes :
    engAfter (step (at0 (demo .padblk 0 0 0 []))) Engine.fault = some .noFault ∧
    engAfter (step (at0 (demo .padblk 0 0 56 []))) Engine.fault = some .msgUnwritten := by decide +kernel

/-- CHKLEN on a length of 2^61 and above, with the invariant: nothing is planned there yet. -/
theorem test_witness_chklen_rejects :
    (at0 { demo .chklen 0 0 0 [] with len := 0x2000000000000000 }).Inv ∧
    2 ^ 61 ≤ ({ demo .chklen 0 0 0 [] with len := 0x2000000000000000 } : Engine).len.toNat := by
  refine ⟨?_, by decide⟩
  have h : (at0 (demo .chklen 0 0 0 [])).Inv := demo_inv (by decide +kernel)
  exact
    { msg_canonical := h.msg_canonical
      msg_in_range := h.msg_in_range
      errcode_iff := h.errcode_iff
      t_range := h.t_range
      len_checked := fun hb => absurd hb.1 (by decide)
      plen_planned := fun hb => absurd hb.1 (by decide)
      off_aligned := h.off_aligned
      off_start := h.off_start
      off_room := h.off_room
      done_off := h.done_off
      plen_legal := h.plen_legal
      h_written := h.h_written
      blk_written := h.blk_written
      w_prefix_written := h.w_prefix_written
      w_written := h.w_written
      r_written := h.r_written }

/-- SequencerStepsExactlyWhenEnabled, EveryStepKeepsTheInvariant, NoStepStopsUnderTheInvariant,
MessageIsConstantDuringACall: a busy state with the invariant and a next state, and a resting one. -/
theorem test_witness_inv :
    (at0 (demo .wexp 63 0 3 (as 3))).Inv ∧ (at0 (demo .wexp 63 0 3 (as 3))).agenda = [] ∧
    (demo .wexp 63 0 3 (as 3)).busy = true ∧ (demo .wexp 63 0 3 (as 3)).fault = .noFault ∧
    (next? (step (at0 (demo .wexp 63 0 3 (as 3))))).isSome = true ∧ (at0 (demo .idle 0 0 3 (as 3))).Inv :=
  ⟨demo_inv (by decide +kernel), rfl, by decide, rfl, by decide +kernel, demo_inv (by decide +kernel)⟩

/-- EveryStepKeepsTheRunningHash: a call that hashes three bytes, at its start and before its first block. -/
theorem test_witness_hashing :
    (at0 (demo .chklen 0 0 3 (as 3))).Inv ∧ (demo .chklen 0 0 3 (as 3)).busy = true ∧
    (demo .chklen 0 0 3 (as 3)).Hashing Config.full (List.replicate 3 0x61) ∧
    (at0 (demo .padblk 0 0 3 (as 3))).Inv ∧ (demo .padblk 0 0 3 (as 3)).busy = true ∧
    (demo .padblk 0 0 3 (as 3)).Hashing Config.full (List.replicate 3 0x61) ∧
    (next? (step (at0 (demo .padblk 0 0 3 (as 3))))).isSome = true :=
  ⟨demo_inv (by decide +kernel), by decide, loaded_as _ _ _ _ 3 (by decide) (by decide +kernel),
    demo_inv (by decide +kernel), by decide,
    ⟨loaded_as _ _ _ _ 3 (by decide) (by decide +kernel), values_putAll IV⟩, by decide +kernel⟩

/-- PaddedLengthStandsUntilWrlen: the last HACC of a call, which ends it with PLEN the padded length of LEN; an engine
in DONE as that call leaves it; and a WRLEN there after which PLEN is no longer LEN's. -/
theorem test_witness_planned :
    (at0 (demo .hacc 0 0 3 (as 3))).Inv ∧ (demo .hacc 0 0 3 (as 3)).busy = true ∧
    engAfter (step (at0 (demo .hacc 0 0 3 (as 3)))) (fun e => (e.phase, e.plen.value, e.off.value, e.len)) =
      some (.done, 64, 64, 3) ∧
    (at0 (demo .done 0 64 3 [])).Inv ∧ (demo .done 0 64 3 []).Planned ∧ (demo .done 0 64 3 []).fault = .noFault ∧
    decodeCommand 0x02000000000000003800 = .ok (.wrlen 56) ∧
    engAfter (step (mk 0xFFFFFFFFFFFFFFFF (demo .done 0 64 3 []) [.command 0x02000000000000003800]))
      (fun e => (e.phase, e.plen.value, e.len)) = some (.done, 64, 56) ∧ padLen 56 = 128 :=
  ⟨demo_inv (by decide +kernel), by decide, by decide +kernel, demo_inv (by decide +kernel),
    fun _ => by decide +kernel, rfl, by decide +kernel, by decide +kernel, by decide⟩

/-- CallComputesSha256 and DigestIsIndependentOfHistory: two machines with the same three bytes loaded, one idle and
one after an earlier call, both about to be started. -/
theorem test_witness_call :
    (mk 2 (demo .idle 0 0 3 (as 3)) [startTurn]).Inv ∧ (mk 2 (demo .done 0 64 3 (as 3)) [startTurn]).Inv ∧
    (List.replicate 3 (0x61 : Byte)).length < 2 ^ 61 ∧
    (demo .idle 0 0 3 (as 3)).Loaded (Config.mk 2) (List.replicate 3 0x61) ∧
    (demo .done 0 64 3 (as 3)).Loaded (Config.mk 2) (List.replicate 3 0x61) ∧
    (demo .idle 0 0 3 (as 3)).fault = .noFault ∧ (demo .done 0 64 3 (as 3)).fault = .noFault ∧
    (demo .idle 0 0 3 (as 3)).busy = false ∧ (demo .done 0 64 3 (as 3)).busy = false :=
  ⟨demo_inv (by decide +kernel), demo_inv (by decide +kernel), by decide,
    loaded_as _ _ _ _ 3 (by decide) (by decide), loaded_as _ _ _ _ 3 (by decide) (by decide), rfl, rfl, by decide,
    by decide⟩

/-- TooLongCallEndsInError. -/
theorem test_witness_too_long :
    let s := mk 0 { Engine.reset with len := 0x2000000000000000 } [startTurn]
    2 ^ 61 ≤ s.eng.len.toNat ∧ s.eng.fault = .noFault ∧ s.eng.busy = false ∧ s.agenda = [startTurn] := by decide

/-- MissingByteHaltsTheCall: byte 1 out of range, and byte 1 unwritten. -/
theorem test_witness_missing :
    (mk 0 (demo .idle 0 0 2 (as 1)) [startTurn]).Inv ∧ (mk 1 (demo .idle 0 0 2 (as 1)) [startTurn]).Inv ∧
    (demo .idle 0 0 2 (as 1)).len.toNat < 2 ^ 61 ∧ 1 < (demo .idle 0 0 2 (as 1)).len.toNat ∧
    (Config.mk 0).msgCapacity ≤ 1 ∧ Memory.read (as 1) 1 = none ∧
    (∀ q, q < 1 → q < (Config.mk 0).msgCapacity ∧ Memory.read (as 1) q ≠ none) :=
  ⟨demo_inv (by decide +kernel), demo_inv (by decide +kernel), by decide, by decide, by decide, by decide, by decide⟩

/-- StatusRevealsNoMessageByte: two calls on different bytes, one byte written and one not in both. -/
theorem test_witness_secret :
    (at0 (demo .chklen 0 0 2 [(0, 0x61)])).Inv ∧ (at0 (demo .chklen 0 64 2 [(0, 0xff)])).Inv ∧
    (∀ a, a < 2 → (Memory.read [(0, 0x61)] a).isSome = (Memory.read [(0, 0xff)] a).isSome) ∧
    Memory.read [(0, (0x61 : Byte))] 0 ≠ Memory.read [(0, 0xff)] 0 ∧
    (demo .chklen 0 0 2 [(0, 0x61)]).len = (demo .chklen 0 64 2 [(0, 0xff)]).len := by
  refine ⟨demo_inv (by decide +kernel), ?_, by decide, by decide, rfl⟩
  have h : (at0 (demo .chklen 0 0 2 [(0, 0xff)])).Inv := demo_inv (by decide +kernel)
  exact
    { h with
      off_aligned := fun hb => absurd hb.1 (by decide)
      off_start := fun hp => absurd hp (by decide)
      off_room := fun hb => absurd hb.1 (by decide)
      done_off := fun hp => absurd hp (by decide) }

/-- PollingDoesNotDisturbACall. -/
theorem test_witness_polling :
    (at0 (demo .hacc 0 0 0 [])).Inv ∧
    ∀ turn ∈ [rdstatTurn, .seq, rdstatTurn], turn = .seq ∨ turn = rdstatTurn :=
  ⟨demo_inv (by decide +kernel), by decide⟩

/-- HostProcedureReturnsSha256: a message of exactly the capacity, on a resting engine. -/
theorem test_witness_host :
    let m : List Byte := [0x61, 0x62, 0x63]
    let s := mk 2 (demo .done 0 64 0 []) (hashTurns m (callSteps m.length))
    s.Inv ∧ m.length < 2 ^ 61 ∧ m.length ≤ s.config.msgCapacity ∧ s.eng.fault = .noFault ∧ s.eng.busy = false ∧
      s.agenda = hashTurns m (callSteps m.length) :=
  ⟨demo_inv (by decide +kernel), by decide, by decide, rfl, by decide, rfl⟩

end Sys2Proof.Machine.Tests
end

/-! The whole padded buffer `pad m`, byte by byte, against PAD as PADBLK reads it. -/

namespace Sys2Proof.Machine

/-- The marker and the length field fit into the padded length, a positive multiple of 64 (R123). -/
theorem padLen_bounds (l : Nat) : l + 9 ≤ padLen l ∧ padLen l ≤ l + 72 ∧ padLen l % 64 = 0 := by
  unfold padLen; omega

/-- The padded length is NBLK blocks (R123 d). -/
theorem blockCount_mul (l : Nat) : 64 * blockCount l = padLen l := by
  unfold blockCount padLen; omega

@[simp] theorem lengthField_length (l : Nat) : (lengthField l).length = 8 := by simp [lengthField]

/-- The padded buffer below LEN is the message. -/
theorem pad_message {m : List Byte} {p : Nat} (h : p < m.length) : (pad m)[p]? = m[p]? := by
  simp [pad, List.getElem?_append_left, h]

/-- The padded buffer at LEN is the marker. -/
theorem pad_marker (m : List Byte) : (pad m)[m.length]? = some 0x80 := by
  simp [pad]

/-- The padded buffer is zero between marker and length field. -/
theorem pad_zero {m : List Byte} {p : Nat} (h : m.length < p) (h' : p < padLen m.length - 8) :
    (pad m)[p]? = some 0 := by
  obtain ⟨i, rfl⟩ : ∃ i, p = m.length + 1 + i := ⟨p - (m.length + 1), by omega⟩
  have hi : i < padLen m.length - m.length - 9 := by omega
  rw [pad, List.append_assoc, List.getElem?_append_right (by simp),
    List.getElem?_append_left (by simp; omega)]
  simp [hi]

/-- The last eight bytes of the padded buffer are the length field. -/
theorem pad_length_field {m : List Byte} {i : Nat} (hi : i < 8) :
    (pad m)[padLen m.length - 8 + i]? = some (be64byte (BitVec.ofNat 64 (m.length * 8)) i) := by
  have hb := padLen_bounds m.length
  rw [pad, List.getElem?_append_right (by simp; omega)]
  have : padLen m.length - 8 + i -
      (m ++ [0x80] ++ List.replicate (padLen m.length - m.length - 9) (0 : Byte)).length = i := by
    simp; omega
  rw [this]; simp [lengthField, hi]

/-- The stored length shifted to bits is the length field's value (R91). -/
theorem Engine.Loaded.bitLength {c : Config} {m : List Byte} {e : Engine} (h : e.Loaded c m) :
    e.len <<< 3 = BitVec.ofNat 64 (m.length * 8) := by
  rw [← BitVec.toNat_inj, bitLength_toNat, BitVec.toNat_ofNat, h.len_eq]

/-- A message stays loaded while LEN and MSG stay. -/
theorem Engine.Loaded.congr {c : Config} {m : List Byte} {e e' : Engine} (h : e.Loaded c m)
    (hlen : e'.len = e.len) (hmsg : e'.msg = e.msg) : e'.Loaded c m where
  len_eq := hlen ▸ h.len_eq
  in_range := h.in_range
  bytes := hmsg ▸ h.bytes

/-- A byte of a loaded message is read as it stands. -/
theorem Engine.Loaded.engineRead {c : Config} {m : List Byte} {e : Engine} {p : Nat} {b : Byte} (h : e.Loaded c m)
    (hb : m[p]? = some b) : engineRead c e.msg p = .ok b := by
  obtain ⟨hp, -⟩ := List.getElem?_eq_some_iff.mp hb
  exact engineRead_ok_iff.mpr ⟨Nat.lt_of_lt_of_le hp h.in_range, h.bytes p b hb⟩

/-- With the message loaded and PLEN planned, PADBLK reads byte `p` of the whole buffer (R126). -/
theorem Engine.Loaded.padByte_eq {c : Config} {m : List Byte} {e : Engine} {p : Nat} (h : e.Loaded c m)
    (hplen : e.plen.value.toNat = padLen m.length) (hp : p < padLen m.length) :
    ∃ b, (pad m)[p]? = some b ∧ padByte c e p = .ok b := by
  have hlen := h.len_eq
  rcases Nat.lt_trichotomy p m.length with hlt | heq | hgt
  · have hb : m[p]? = some m[p] := List.getElem?_eq_getElem hlt
    exact ⟨m[p], (pad_message hlt).trans hb, (padByte_message (by omega)).trans (h.engineRead hb)⟩
  · exact ⟨0x80, heq ▸ pad_marker m, padByte_marker (by omega)⟩
  · rcases Nat.lt_or_ge p (padLen m.length - 8) with hz | hf
    · exact ⟨0, pad_zero hgt hz, padByte_zero (by omega) (by omega)⟩
    · obtain ⟨i, rfl⟩ : ∃ i, p = padLen m.length - 8 + i := ⟨p - (padLen m.length - 8), by omega⟩
      refine ⟨_, pad_length_field (by omega), ?_⟩
      rw [padByte_length (by omega) (by omega), h.bitLength, hplen, Nat.add_sub_cancel_left]

/-- The block that PADBLK reads is the buffer's block at OFF (R126). -/
theorem Engine.Loaded.block_eq {c : Config} {m : List Byte} {e : Engine} {k : Nat} {v : Vector Byte 64}
    (h : e.Loaded c m) (hplen : e.plen.value.toNat = padLen m.length) (hk : 64 * k + 64 ≤ padLen m.length)
    (hv : ∀ j (hj : j < 64), padByte c e (64 * k + j) = .ok v[j]) : v = blockOf (pad m) k := by
  ext1 j hj
  obtain ⟨b, hb, hpb⟩ := h.padByte_eq hplen (show 64 * k + j < padLen m.length by omega)
  rw [hv j hj] at hpb
  cases hpb
  simp [blockOf, hb]

end Sys2Proof.Machine

/-! The sequencer's turn keeps the invariant (44_sequencer.md R193). -/

namespace Sys2Proof.Machine

@[simp] theorem Phase.code_idle : Phase.idle.code = 0 := rfl
@[simp] theorem Phase.code_chklen : Phase.chklen.code = 1 := rfl
@[simp] theorem Phase.code_plan : Phase.plan.code = 2 := rfl
@[simp] theorem Phase.code_hinit : Phase.hinit.code = 3 := rfl
@[simp] theorem Phase.code_padblk : Phase.padblk.code = 4 := rfl
@[simp] theorem Phase.code_wload : Phase.wload.code = 5 := rfl
@[simp] theorem Phase.code_wexp : Phase.wexp.code = 6 := rfl
@[simp] theorem Phase.code_rinit : Phase.rinit.code = 7 := rfl
@[simp] theorem Phase.code_round : Phase.round.code = 8 := rfl
@[simp] theorem Phase.code_hacc : Phase.hacc.code = 9 := rfl
@[simp] theorem Phase.code_done : Phase.done.code = 10 := rfl
@[simp] theorem Phase.code_error : Phase.error.code = 11 := rfl

@[simp] theorem Phase.between_iff (p : Phase) (lo hi : Nat) :
    p.between lo hi ↔ lo ≤ p.code.toNat ∧ p.code.toNat ≤ hi := Iff.rfl

/-- A wider range of phases. -/
theorem Phase.between.mono {p : Phase} {lo hi lo' hi' : Nat} (h : p.between lo hi) (hlo : lo' ≤ lo) (hhi : hi ≤ hi') :
    p.between lo' hi' :=
  ⟨Nat.le_trans hlo h.1, Nat.le_trans h.2 hhi⟩

/-- What holds of the elements below `n`, and of the one written at `n`, holds below `n + 1`. -/
theorem forall_lt_succ_set {α : Type} {k n : Nat} {f : Vector α k} {x : α} {P : Nat → α → Prop} (hn : n < k)
    (h : ∀ i : Fin k, i.val < n → P i f[i]) (hx : P n x) :
    ∀ i : Fin k, i.val < n + 1 → P i (f.set n x)[i] := by
  intro i hi
  rw [Fin.getElem_fin, Vector.getElem_set]
  split
  · next heq => exact heq ▸ hx
  · next hne => exact h i (by omega)

/-- Writing word `n` of W after the words below it (R41). -/
theorem written_lt_succ_set {w : Vector (Slot 32) 64} {n : Nat} (hn : n < 64) (v : Word)
    (h : ∀ i : Fin 64, i.val < n → w[i].written = true) :
    ∀ i : Fin 64, i.val < n + 1 → (w.set n ⟨v, true⟩)[i].written = true :=
  forall_lt_succ_set (P := fun _ (x : Slot 32) => x.written = true) hn h rfl

theorem putAll_written {n k : Nat} (v : Vector (BitVec n) k) (i : Fin k) : (putAll v)[i].written = true := by simp

/-- The part of the invariant that holds throughout PADBLK..HACC, free of PHASE and T (R193 (a) to (c), R41). -/
structure Engine.Block (c : Config) (e : Engine) : Prop where
  msg_canonical : Memory.wf e.msg
  msg_in_range : ∀ a b, Memory.read e.msg a = some b → a < c.msgCapacity
  errcode_eq : e.errcode = .noError
  len_checked : e.len.toNat < 2 ^ 61
  plen_planned : e.plen.written = true ∧ e.plen.value.toNat = padLen e.len.toNat
  off_aligned : e.off.written = true ∧ e.off.value.toNat % 64 = 0
  off_room : e.off.value.toNat + 64 ≤ e.plen.value.toNat
  h_written : ∀ i : Fin 8, e.h[i].written = true

/-- The block facts depend on MSG, ERRCODE, LEN, PLEN, OFF and H alone. -/
theorem Engine.Block.congr {c : Config} {e e' : Engine} (h : e.Block c) (hmsg : e'.msg = e.msg)
    (herr : e'.errcode = e.errcode) (hlen : e'.len = e.len) (hplen : e'.plen = e.plen) (hoff : e'.off = e.off)
    (hh : e'.h = e.h) : e'.Block c where
  msg_canonical := hmsg ▸ h.msg_canonical
  msg_in_range := hmsg ▸ h.msg_in_range
  errcode_eq := herr ▸ h.errcode_eq
  len_checked := hlen ▸ h.len_checked
  plen_planned := by rw [hplen, hlen]; exact h.plen_planned
  off_aligned := hoff ▸ h.off_aligned
  off_room := by rw [hoff, hplen]; exact h.off_room
  h_written := hh ▸ h.h_written

/-- ERRCODE is 0 outside ERROR (R33). -/
theorem Engine.Inv.errcode_eq {c : Config} {e : Engine} (h : e.Inv c) (hp : e.phase ≠ .error) :
    e.errcode = .noError := by
  cases he : e.errcode with
  | noError => rfl
  | inputTooLarge => exact absurd (h.errcode_iff.mp he) hp

/-- The padded length of a checked length is a legal PLEN (R28). -/
theorem padLen_legal {l : Nat} (h : l < 2 ^ 61) : padLen l % 64 = 0 ∧ 64 ≤ padLen l ∧ padLen l ≤ 2 ^ 61 + 64 := by
  unfold padLen; omega

/-- PLEN is legal (R28). -/
theorem Engine.Block.plen_legal {c : Config} {e : Engine} (h : e.Block c) :
    e.plen.value.toNat % 64 = 0 ∧ 64 ≤ e.plen.value.toNat ∧ e.plen.value.toNat ≤ 2 ^ 61 + 64 := by
  rw [h.plen_planned.2]; exact padLen_legal h.len_checked

/-- Under the invariant the block facts hold in PADBLK..HACC. -/
theorem Engine.Inv.block {c : Config} {e : Engine} (h : e.Inv c) (hb : e.phase.between 4 9) : e.Block c where
  msg_canonical := h.msg_canonical
  msg_in_range := h.msg_in_range
  errcode_eq := h.errcode_eq fun hp => by simp [hp] at hb
  len_checked := h.len_checked (hb.mono (by decide) (by decide))
  plen_planned := h.plen_planned (hb.mono (by decide) (by decide))
  off_aligned := h.off_aligned (hb.mono (by decide) (by decide))
  off_room := h.off_room hb
  h_written := h.h_written (hb.mono (by decide) (by decide))

/-- In PADBLK..HACC the invariant is the block facts, the range of T, and what has been written of BLK, W and R. -/
theorem Engine.Block.inv {c : Config} {e : Engine} (h : e.Block c) (hb : e.phase.between 4 9)
    (ht : tInRange e.phase e.t = true)
    (blk : e.phase.between 5 9 → ∀ j : Fin 64, e.blk[j].written = true)
    (wBelow : e.phase.between 5 6 → ∀ i : Fin 64, i.val < e.t.toNat → e.w[i].written = true)
    (w : e.phase.between 7 9 → ∀ i : Fin 64, e.w[i].written = true)
    (r : e.phase.between 8 9 → ∀ i : Fin 8, e.r[i].written = true) : e.Inv c where
  msg_canonical := h.msg_canonical
  msg_in_range := h.msg_in_range
  errcode_iff := by
    rw [h.errcode_eq]
    constructor
    · rintro ⟨⟩
    · intro hp; simp [hp] at hb
  t_range := ht
  len_checked := fun _ => h.len_checked
  plen_planned := fun _ => h.plen_planned
  off_aligned := fun _ => h.off_aligned
  off_start := fun hp => by simp [hp] at hb
  off_room := fun _ => h.off_room
  done_off := fun hp => by simp [hp] at hb
  plen_legal := fun _ => h.plen_legal
  h_written := fun _ => h.h_written
  blk_written := blk
  w_prefix_written := wBelow
  w_written := w
  r_written := r

/-- Before its last value T advances without wrapping. -/
theorem t_succ_toNat {t : BitVec 6} (h : t ≠ 63) : (t + 1).toNat = t.toNat + 1 := by
  bv_omega

/-- Outside HINIT..DONE the invariant asks only for the message memory, ERRCODE, the range of T and a checked LEN. -/
theorem Engine.inv_of_unplanned {c : Config} {e : Engine} (hout : ¬ e.phase.between 3 10)
    (msg_canonical : Memory.wf e.msg) (msg_in_range : ∀ a b, Memory.read e.msg a = some b → a < c.msgCapacity)
    (errcode_iff : e.errcode = .inputTooLarge ↔ e.phase = .error) (t_range : tInRange e.phase e.t = true)
    (len_checked : e.phase.between 2 9 → e.len.toNat < 2 ^ 61) : e.Inv c where
  msg_canonical := msg_canonical
  msg_in_range := msg_in_range
  errcode_iff := errcode_iff
  t_range := t_range
  len_checked := len_checked
  plen_planned := fun hb => absurd (hb.mono (by decide) (by decide)) hout
  off_aligned := fun hb => absurd hb hout
  off_start := fun hp => by simp [hp] at hout
  off_room := fun hb => absurd (hb.mono (by decide) (by decide)) hout
  done_off := fun hp => by simp [hp] at hout
  plen_legal := fun hb => absurd hb hout
  h_written := fun hb => absurd (hb.mono (by decide) (by decide)) hout
  blk_written := fun hb => absurd (hb.mono (by decide) (by decide)) hout
  w_prefix_written := fun hb => absurd (hb.mono (by decide) (by decide)) hout
  w_written := fun hb => absurd (hb.mono (by decide) (by decide)) hout
  r_written := fun hb => absurd (hb.mono (by decide) (by decide)) hout

/-- START outside a call gives a state with the invariant (R213). -/
theorem Engine.Inv.start {c : Config} {e : Engine} (h : e.Inv c) :
    ({ e with errcode := .noError, t := 0, phase := .chklen } : Engine).Inv c :=
  Engine.inv_of_unplanned (by simp) h.msg_canonical h.msg_in_range (by simp) rfl (by simp)

/-- PLAN gives a state with the invariant (R122). -/
theorem Engine.Inv.plan {c : Config} {e : Engine} (h : e.Inv c) (hp : e.phase = .plan) :
    ({ e with plen := ⟨paddedLength e.len, true⟩, off := ⟨0, true⟩, phase := .hinit } : Engine).Inv c := by
  have hl : e.len.toNat < 2 ^ 61 := h.len_checked (by simp [hp])
  have hplen : (paddedLength e.len).toNat = padLen e.len.toNat := paddedLength_toNat hl
  exact
    { msg_canonical := h.msg_canonical
      msg_in_range := h.msg_in_range
      errcode_iff := by simp [h.errcode_eq, hp]
      t_range := by simpa [hp, tInRange] using h.t_range
      len_checked := fun _ => hl
      plen_planned := fun _ => ⟨rfl, hplen⟩
      off_aligned := fun _ => ⟨rfl, rfl⟩
      off_start := fun _ => rfl
      off_room := by simp
      done_off := by simp
      plen_legal := fun _ => hplen ▸ padLen_legal hl
      h_written := by simp
      blk_written := by simp
      w_prefix_written := by simp
      w_written := by simp
      r_written := by simp }

/-- HINIT opens the first block: PLEN leaves room for it (R123). -/
theorem Engine.Inv.hinit {c : Config} {e : Engine} (h : e.Inv c) (hp : e.phase = .hinit) :
    ({ e with h := putAll IV, phase := .padblk } : Engine).Inv c := by
  have hoff : e.off.value.toNat = 0 := by rw [h.off_start hp]; rfl
  have hlegal := h.plen_legal (by simp [hp])
  have hblock : ({ e with h := putAll IV, phase := .padblk } : Engine).Block c :=
    { msg_canonical := h.msg_canonical
      msg_in_range := h.msg_in_range
      errcode_eq := h.errcode_eq (by simp [hp])
      len_checked := h.len_checked (by simp [hp])
      plen_planned := h.plen_planned (by simp [hp])
      off_aligned := h.off_aligned (by simp [hp])
      off_room := by show e.off.value.toNat + 64 ≤ e.plen.value.toNat; omega
      h_written := putAll_written IV }
  exact hblock.inv (by simp) (by simpa [hp, tInRange] using h.t_range) (by simp) (by simp) (by simp) (by simp)

/-- OFF as a number after HACC: it does not wrap (R156). -/
theorem Engine.Block.off_succ {c : Config} {e : Engine} (h : e.Block c) :
    (e.off.value + 64).toNat = e.off.value.toNat + 64 := by
  have hroom := h.off_room
  have hmax := h.plen_legal.2.2
  bv_omega

/-- HACC on to the next block, or to DONE with OFF = PLEN (R179, R193 d). -/
theorem Engine.Block.hacc_inv {c : Config} {e : Engine} (h : e.Block c) (ht : e.t = 0) (v : Vector Word 8) :
    ({ e with
        h := putAll v
        off := ⟨e.off.value + 64, true⟩
        phase := if e.off.value.toNat + 64 < e.plen.value.toNat then .padblk else .done } : Engine).Inv c := by
  have hoff := h.off_succ
  have hroom := h.off_room
  have halign := h.off_aligned.2
  have hlegal := h.plen_legal
  split
  · next hlt =>
    have hblock : ({ e with h := putAll v, off := ⟨e.off.value + 64, true⟩, phase := .padblk } : Engine).Block c :=
      { h with
        off_aligned := ⟨rfl, by show (e.off.value + 64).toNat % 64 = 0; omega⟩
        off_room := by show (e.off.value + 64).toNat + 64 ≤ e.plen.value.toNat; omega
        h_written := putAll_written v }
    exact hblock.inv (by simp) (by simp [ht, tInRange]) (by simp) (by simp) (by simp) (by simp)
  · next hge =>
    exact
      { msg_canonical := h.msg_canonical
        msg_in_range := h.msg_in_range
        errcode_iff := by simp [h.errcode_eq]
        t_range := by simp [ht, tInRange]
        len_checked := by simp
        plen_planned := by simp
        off_aligned := fun _ => ⟨rfl, by show (e.off.value + 64).toNat % 64 = 0; omega⟩
        off_start := by simp
        off_room := by simp
        done_off := fun _ => ⟨h.plen_planned.1, BitVec.eq_of_toNat_eq (by
          show (e.off.value + 64).toNat = e.plen.value.toNat; omega)⟩
        plen_legal := fun _ => hlegal
        h_written := fun _ => putAll_written v
        blk_written := by simp
        w_prefix_written := by simp
        w_written := by simp
        r_written := by simp }

/-- The sequencer's turn keeps the invariant (R193 a to e). -/
theorem MicroEffect.inv {c : Config} {e e' : Engine} (h : e.Inv c) (hm : MicroEffect c e e') : e'.Inv c := by
  cases hm with
  | same _ => exact h
  | plan hf hp hl =>
    exact Engine.inv_of_unplanned (by simp) h.msg_canonical h.msg_in_range
      (by simp [h.errcode_eq, hp]) (by simpa [hp, tInRange] using h.t_range) fun _ => hl
  | tooLarge hf hp hl =>
    exact Engine.inv_of_unplanned (by simp) h.msg_canonical h.msg_in_range
      (by simp) (by simpa [hp, tInRange] using h.t_range) (by simp)
  | hinit hf hp => exact h.plan hp
  | padblk hf hp => exact h.hinit hp
  | wload v hf hp hv =>
    have hblock := h.block (by simp [hp])
    exact Engine.Block.inv (hblock.congr rfl rfl rfl rfl rfl rfl) (by simp) rfl (fun _ => putAll_written v)
      (by simp) (by simp) (by simp)
  | missing j f hf hp hf' hj hl hr hlow => exact { h with }
  | word ht hf hp =>
    have hblock := h.block (by simp [hp])
    have hblk := h.blk_written (by simp [hp])
    have hw := written_lt_succ_set (by omega) (blockWord (values e.blk) e.t.toNat ht)
      (h.w_prefix_written (by simp [hp]))
    by_cases h15 : e.t = 15
    · simp only [h15, if_true] at hw ⊢
      exact Engine.Block.inv (hblock.congr rfl rfl rfl rfl rfl rfl) (by simp) rfl (fun _ => hblk)
        (fun _ => hw) (by simp) (by simp)
    · have hsucc : (e.t + 1).toNat = e.t.toNat + 1 := t_succ_toNat (by bv_omega)
      simp only [h15, if_false, hp]
      exact Engine.Block.inv (hblock.congr rfl rfl rfl rfl rfl rfl) (by simp)
        (by simp only [tInRange, decide_eq_true_eq]; bv_omega) (fun _ => hblk)
        (fun _ => hsucc ▸ hw) (by simp) (by simp)
  | expand n hn hf hp ht =>
    have hblock := h.block (by simp [hp])
    have hblk := h.blk_written (by simp [hp])
    have hbelow := h.w_prefix_written (by simp [hp])
    rw [ht] at hbelow
    have hw := written_lt_succ_set (by omega)
      (expandWord e.w[n].value e.w[n + 1].value e.w[n + 9].value e.w[n + 14].value) hbelow
    by_cases h63 : e.t = 63
    · obtain rfl : n = 47 := by rw [h63] at ht; simp at ht; omega
      simp only [h63, if_true]
      exact Engine.Block.inv (hblock.congr rfl rfl rfl rfl rfl rfl) (by simp) rfl (fun _ => hblk)
        (by simp) (fun _ i => hw i i.isLt) (by simp)
    · have hsucc : (e.t + 1).toNat = n + 16 + 1 := by rw [t_succ_toNat h63, ht]
      simp only [h63, if_false, hp]
      exact Engine.Block.inv (hblock.congr rfl rfl rfl rfl rfl rfl) (by simp)
        (by simp only [tInRange, decide_eq_true_eq]; omega) (fun _ => hblk)
        (fun _ => hsucc ▸ hw) (by simp) (by simp)
  | rinit hf hp =>
    have hblock := h.block (by simp [hp])
    have hblk := h.blk_written (by simp [hp])
    have hw := h.w_written (by simp [hp])
    exact Engine.Block.inv (hblock.congr rfl rfl rfl rfl rfl rfl) (by simp) rfl (fun _ => hblk)
      (by simp) (fun _ => hw) (fun _ => putAll_written _)
  | round hf hp =>
    have hblock := h.block (by simp [hp])
    have hblk := h.blk_written (by simp [hp])
    have hw := h.w_written (by simp [hp])
    split
    · exact Engine.Block.inv (hblock.congr rfl rfl rfl rfl rfl rfl) (by simp) rfl (fun _ => hblk)
        (by simp) (fun _ => hw) (fun _ => putAll_written _)
    · exact Engine.Block.inv (hblock.congr rfl rfl rfl rfl rfl rfl) (by simp [hp]) (by simp [hp, tInRange])
        (fun _ => hblk) (by simp [hp]) (fun _ => hw) (fun _ => putAll_written _)
  | hacc hf hp =>
    exact (h.block (by simp [hp])).hacc_inv (by simpa [hp, tInRange] using h.t_range) _

end Sys2Proof.Machine

/-! The sequencer's turn keeps the running hash (44_sequencer.md R193 f). -/

namespace Sys2Proof.Machine

/-- The sequencer changes neither LEN nor MSG (20_memory.md R75). -/
theorem MicroEffect.len_msg {c : Config} {e e' : Engine} (hm : MicroEffect c e e') :
    e'.len = e.len ∧ e'.msg = e.msg := by
  cases hm <;> exact ⟨rfl, rfl⟩

/-- The sequencer leaves a loaded message loaded. -/
theorem Engine.Loaded.micro {c : Config} {m : List Byte} {e e' : Engine} (h : e.Loaded c m)
    (hm : MicroEffect c e e') : e'.Loaded c m :=
  h.congr hm.len_msg.1 hm.len_msg.2

/-- OFF is the byte offset of the block it indexes (R193 b). -/
theorem Engine.Block.off_eq {c : Config} {e : Engine} (h : e.Block c) :
    e.off.value.toNat = 64 * e.blockIndex := by
  have := h.off_aligned.2
  unfold Engine.blockIndex
  omega

/-- The block at OFF is one of the message's blocks (R193 c). -/
theorem Engine.Block.blockIndex_lt {c : Config} {m : List Byte} {e : Engine} (h : e.Block c) (hl : e.Loaded c m) :
    64 * e.blockIndex + 64 ≤ padLen m.length := by
  rw [← h.off_eq, ← hl.len_eq, ← h.plen_planned.2]
  exact h.off_room

/-- The block index depends on OFF alone. -/
theorem Engine.blockIndex_congr {e e' : Engine} (hoff : e'.off = e.off) : e'.blockIndex = e.blockIndex := by
  rw [Engine.blockIndex, hoff, Engine.blockIndex]

/-- HACC advances the block index by one. -/
theorem Engine.Block.blockIndex_succ {c : Config} {e e' : Engine} (h : e.Block c)
    (hoff : e'.off.value = e.off.value + 64) : e'.blockIndex = e.blockIndex + 1 := by
  have hsucc := h.off_succ
  unfold Engine.blockIndex
  rw [hoff, hsucc]
  omega

/-- Writing word `n` of W after the schedule words below it (R146). -/
theorem schedule_lt_succ_set {w : Vector (Slot 32) 64} {b : Vector Byte 64} {n : Nat} (hn : n < 64) {v : Word}
    (h : ∀ i : Fin 64, i.val < n → w[i].value = (schedule b)[i]) (hv : v = (schedule b)[n]) :
    ∀ i : Fin 64, i.val < n + 1 → (w.set n ⟨v, true⟩)[i].value = (schedule b)[i] := by
  have hset := forall_lt_succ_set (P := fun i (x : Slot 32) => ∀ hi : i < 64, x.value = (schedule b)[i])
    (x := ⟨v, true⟩) hn (fun i hi _ => h i hi) (fun _ => hv)
  exact fun i hi => hset i hi i.isLt

/-- PADBLK loads the block at OFF (R125, R126). -/
theorem Engine.Hashing.padblk {c : Config} {m : List Byte} {e : Engine} {v : Vector Byte 64} (hh : e.Hashing c m)
    (h : e.Inv c) (hp : e.phase = .padblk)
    (hv : ∀ j (_ : j < 64), padByte c e (e.off.value.toNat + j) = .ok v[j]) :
    ({ e with blk := putAll v, t := 0, phase := .wload } : Engine).Hashing c m := by
  simp only [Engine.Hashing, hp] at hh
  obtain ⟨hl, hhash⟩ := hh
  have hblock := h.block (by simp [hp])
  have hplen : e.plen.value.toNat = padLen m.length := hl.len_eq ▸ hblock.plen_planned.2
  rw [hblock.off_eq] at hv
  have hk : ({ e with blk := putAll v, t := 0, phase := .wload } : Engine).blockIndex = e.blockIndex :=
    Engine.blockIndex_congr rfl
  simp only [Engine.Hashing, hk, values_putAll]
  exact ⟨hl.congr rfl rfl, hhash, hl.block_eq hplen (hblock.blockIndex_lt hl) hv,
    fun i hi => absurd hi (Nat.not_lt_zero i.val)⟩

/-- WLOAD adds a word of the block to the schedule (R144, R146). -/
theorem Engine.Hashing.word {c : Config} {m : List Byte} {e : Engine} (hh : e.Hashing c m)
    (hp : e.phase = .wload) (ht : e.t.toNat < 16) :
    ({ e with
        w := e.w.set e.t.toNat ⟨blockWord (values e.blk) e.t.toNat ht, true⟩
        t := if e.t = 15 then 16 else e.t + 1
        phase := if e.t = 15 then .wexp else e.phase } : Engine).Hashing c m := by
  simp only [Engine.Hashing, hp] at hh
  obtain ⟨hl, hhash, hblk, hpre⟩ := hh
  have hw := schedule_lt_succ_set (by omega) hpre (schedule_block_word _ e.t.toNat ht).symm
  rw [← hblk] at hw
  by_cases h15 : e.t = 15
  · simp only [h15, if_true] at hw ⊢
    exact ⟨hl.congr rfl rfl, hhash, hblk, hblk ▸ hw⟩
  · have hsucc : (e.t + 1).toNat = e.t.toNat + 1 := t_succ_toNat (by bv_omega)
    simp only [h15, if_false, hp]
    exact ⟨hl.congr rfl rfl, hhash, hblk, hsucc ▸ hblk ▸ hw⟩

/-- WEXP adds the next word by the recurrence (R145, R146). -/
theorem Engine.Hashing.expand {c : Config} {m : List Byte} {e : Engine} {n : Nat} (hh : e.Hashing c m) (hn : n < 48)
    (hp : e.phase = .wexp) (ht : e.t.toNat = n + 16) :
    ({ e with
        w := e.w.set (n + 16) ⟨expandWord e.w[n].value e.w[n + 1].value e.w[n + 9].value e.w[n + 14].value, true⟩
        t := if e.t = 63 then 0 else e.t + 1
        phase := if e.t = 63 then .rinit else e.phase } : Engine).Hashing c m := by
  simp only [Engine.Hashing, hp] at hh
  obtain ⟨hl, hhash, hblk, hpre⟩ := hh
  rw [ht] at hpre
  have word (i : Nat) (hi : i < n + 16) : (e.w[i]'(by omega)).value = (schedule (blockOf (pad m) e.blockIndex))[i] :=
    hpre ⟨i, by omega⟩ hi
  have hw := schedule_lt_succ_set (by omega) hpre (schedule_recurrence _ n hn).symm
  rw [← word n (by omega), ← word (n + 1) (by omega), ← word (n + 9) (by omega), ← word (n + 14) (by omega)] at hw
  by_cases h63 : e.t = 63
  · obtain rfl : n = 47 := by rw [h63] at ht; simp at ht; omega
    simp only [h63, if_true]
    refine ⟨hl.congr rfl rfl, hhash, ?_⟩
    ext1 i hi
    exact (values_getElem _ i hi).trans (hw ⟨i, hi⟩ hi)
  · have hsucc : (e.t + 1).toNat = n + 16 + 1 := by rw [t_succ_toNat h63, ht]
    simp only [h63, if_false, hp]
    exact ⟨hl.congr rfl rfl, hhash, hblk, hsucc ▸ hw⟩

/-- ROUND performs round T (R162, R163). -/
theorem Engine.Hashing.round {c : Config} {m : List Byte} {e : Engine} (hh : e.Hashing c m) (hp : e.phase = .round) :
    ({ e with
        r := putAll (roundStep (K[e.t.toNat]'(by have := e.t.isLt; omega))
          (e.w[e.t.toNat]'(by have := e.t.isLt; omega)).value (values e.r))
        t := if e.t = 63 then 0 else e.t + 1
        phase := if e.t = 63 then .hacc else e.phase } : Engine).Hashing c m := by
  have hlt := e.t.isLt
  simp only [Engine.Hashing, hp] at hh
  obtain ⟨hl, hhash, hw, hr⟩ := hh
  have hword : (e.w[e.t.toNat]'(by omega)).value = (schedule (blockOf (pad m) e.blockIndex))[e.t.toNat] := by
    rw [← values_getElem, hw]
  have hstep : roundStep (K[e.t.toNat]'(by omega)) (e.w[e.t.toNat]'(by omega)).value (values e.r) =
      roundsTo (hashAfter m e.blockIndex) (schedule (blockOf (pad m) e.blockIndex)) (e.t.toNat + 1) (by omega) := by
    rw [roundsTo_succ, hr, hword]
  rw [hstep]
  by_cases h63 : e.t = 63
  · simp only [h63, if_true]
    exact ⟨hl.congr rfl rfl, hhash, values_putAll _⟩
  · have hsucc : (e.t + 1).toNat = e.t.toNat + 1 := t_succ_toNat h63
    simp only [h63, if_false, hp]
    refine ⟨hl.congr rfl rfl, hhash, hw, ?_⟩
    simp only [values_putAll, hsucc]
    rfl

/-- HACC folds the block at OFF into the hash (R179, R182, R200). -/
theorem Engine.Hashing.hacc {c : Config} {m : List Byte} {e : Engine} (hh : e.Hashing c m) (h : e.Inv c)
    (hp : e.phase = .hacc) :
    ({ e with
        h := putAll (addLanes (values e.h) (values e.r))
        off := ⟨e.off.value + 64, true⟩
        phase := if e.off.value.toNat + 64 < e.plen.value.toNat then .padblk else .done } : Engine).Hashing c m := by
  simp only [Engine.Hashing, hp] at hh
  obtain ⟨hl, hhash, hr⟩ := hh
  have hblock := h.block (by simp [hp])
  have hplen : e.plen.value.toNat = padLen m.length := hl.len_eq ▸ hblock.plen_planned.2
  have hroom := hblock.blockIndex_lt hl
  have hfold : addLanes (values e.h) (values e.r) = hashAfter m (e.blockIndex + 1) := by
    rw [hhash, hr]; rfl
  rw [hfold, hblock.off_eq, hplen]
  split
  · refine ⟨hl.congr rfl rfl, (values_putAll _).trans ?_⟩
    exact congrArg (hashAfter m) (hblock.blockIndex_succ rfl).symm
  · refine ⟨(values_putAll _).trans ?_, hplen⟩
    have := blockCount_mul m.length
    rw [show blockCount m.length = e.blockIndex + 1 by omega]

/-- The sequencer's turn keeps the running hash (R193 f). -/
theorem MicroEffect.hashing {c : Config} {m : List Byte} {e e' : Engine} (h : e.Inv c) (hh : e.Hashing c m)
    (hm : MicroEffect c e e') : e'.Hashing c m := by
  cases hm with
  | same _ => exact hh
  | plan hf hp hl =>
    simp only [Engine.Hashing, hp] at hh
    exact hh.congr rfl rfl
  | tooLarge hf hp hl => trivial
  | hinit hf hp =>
    simp only [Engine.Hashing, hp] at hh
    exact hh.congr rfl rfl
  | padblk hf hp =>
    simp only [Engine.Hashing, hp] at hh
    have hk : e.blockIndex = 0 := by simp [Engine.blockIndex, h.off_start hp]
    refine ⟨hh.congr rfl rfl, (values_putAll IV).trans ?_⟩
    show hashAfter m 0 = hashAfter m e.blockIndex
    rw [hk]
  | wload v hf hp hv => exact hh.padblk h hp hv
  | missing j f hf hp hf' hj hl hr hlow =>
    simp only [Engine.Hashing, hp] at hh ⊢
    exact ⟨hh.1.congr rfl rfl, hh.2⟩
  | word ht hf hp => exact hh.word hp ht
  | expand n hn hf hp ht => exact hh.expand hn hp ht
  | rinit hf hp =>
    simp only [Engine.Hashing, hp] at hh
    obtain ⟨hl, hhash, hw⟩ := hh
    exact ⟨hl.congr rfl rfl, hhash, hw, (values_putAll _).trans hhash⟩
  | round hf hp => exact hh.round hp
  | hacc hf hp => exact hh.hacc h hp

end Sys2Proof.Machine

/-! A call counted in steps: from START to DONE (44_sequencer.md R194, R200). -/

namespace Sys2Proof.Machine

/-- The sequencer steps a call has completed since CHKLEN, read off PHASE, OFF and T (R194): 3 before the first block,
131 a block, and within a block 1 PADBLK, 16 WLOAD, 48 WEXP, 1 RINIT, 64 ROUND, 1 HACC. -/
def Engine.callStep (e : Engine) : Nat :=
  match e.phase with
  | .idle | .chklen | .error => 0
  | .plan => 1
  | .hinit => 2
  | .padblk | .done => 3 + 131 * e.blockIndex
  | .wload | .wexp => 3 + 131 * e.blockIndex + (1 + e.t.toNat)
  | .rinit => 3 + 131 * e.blockIndex + 65
  | .round => 3 + 131 * e.blockIndex + (66 + e.t.toNat)
  | .hacc => 3 + 131 * e.blockIndex + 130

/-- The engine is in the call that hashes the loaded message `m`, or at its end in DONE; nothing has faulted. -/
structure Engine.Calling (c : Config) (m : List Byte) (e : Engine) : Prop where
  inv : e.Inv c
  loaded : e.Loaded c m
  hashing : e.Hashing c m
  noFault : e.fault = .noFault
  inCall : e.phase.between 1 10

/-- In a call the engine is busy or has reached DONE. -/
theorem Engine.Calling.done_of_not_busy {c : Config} {m : List Byte} {e : Engine} (h : e.Calling c m)
    (hb : e.busy = false) : e.phase = .done := by
  have hin := h.inCall
  rcases (busy_eq_false_iff e).mp hb with hp | hp | hp
  · simp [hp] at hin
  · exact hp
  · simp [hp] at hin

/-- While it is busy, a call has not yet completed its steps (R194). -/
theorem Engine.Calling.callStep_lt {c : Config} {m : List Byte} {e : Engine} (h : e.Calling c m)
    (hb : e.busy = true) : e.callStep < callSteps m.length := by
  have hcount := blockCount_mul m.length
  have hroom : e.phase.between 4 9 → e.blockIndex + 1 ≤ blockCount m.length := fun hin => by
    have := (h.inv.block hin).blockIndex_lt h.loaded; omega
  have ht := h.inv.t_range
  have hlt := e.t.isLt
  unfold Engine.callStep callSteps
  unfold Engine.busy at hb
  cases hp : e.phase <;> simp [hp, tInRange] at hb hroom ht ⊢ <;> omega

/-- In DONE a call has completed exactly its steps: OFF = PLEN (R193 d, R194). -/
theorem Engine.Calling.callStep_done {c : Config} {m : List Byte} {e : Engine} (h : e.Calling c m)
    (hp : e.phase = .done) : e.callStep = callSteps m.length := by
  have hplen := h.hashing
  simp only [Engine.Hashing, hp] at hplen
  have hk : e.blockIndex = blockCount m.length := by
    rw [Engine.blockIndex, (h.inv.done_off hp).2, hplen.2, blockCount]
  simp [Engine.callStep, hp, callSteps, hk]

/-- A loaded message gives PADBLK every byte it reads: no micro-operation faults (R125, R200). -/
theorem MicroEffect.noFault {c : Config} {m : List Byte} {e e' : Engine} (hl : e.Loaded c m)
    (hf : e.fault = .noFault) (hm : MicroEffect c e e') : e'.fault = .noFault := by
  cases hm with
  | missing j f _ hp hf' hj hlt hr hlow =>
    have hbyte : m[e.off.value.toNat + j]? = some (m[e.off.value.toNat + j]'(hl.len_eq ▸ hlt)) :=
      List.getElem?_eq_getElem _
    rw [hl.engineRead hbyte] at hr
    cases hr
  | _ => exact hf

/-- A step of a call stays in the call and counts one: CHKLEN accepts the length, and each micro-operation goes on to
the next of R191. -/
theorem MicroEffect.callStep {c : Config} {m : List Byte} {e e' : Engine} (h : e.Calling c m) (hm : m.length < 2 ^ 61)
    (hb : e.busy = true) (hme : MicroEffect c e e') :
    e'.phase.between 1 10 ∧ e'.callStep = e.callStep + 1 := by
  have hnext := hme.noFault h.loaded h.noFault
  cases hme with
  | same hdis =>
    rcases hdis with hrest | hfault
    · simp [hb] at hrest
    · exact absurd h.noFault hfault
  | plan hf hp hl => simp [Engine.callStep, hp]
  | tooLarge hf hp hl => rw [h.loaded.len_eq] at hl; omega
  | hinit hf hp => simp [Engine.callStep, hp]
  | padblk hf hp =>
    have hk : e.off.value.toNat / 64 = 0 := by simp [h.inv.off_start hp]
    simp [Engine.callStep, Engine.blockIndex, hp, hk]
  | wload v hf hp hv => simp [Engine.callStep, Engine.blockIndex, hp]
  | missing j f hf hp hf' hj hlt hr hlow => exact absurd hnext hf'
  | word ht hf hp =>
    by_cases h15 : e.t = 15
    · simp [Engine.callStep, Engine.blockIndex, hp, h15]
    · have hsucc : (e.t + 1).toNat = e.t.toNat + 1 := t_succ_toNat (by bv_omega)
      simp only [Phase.between_iff, Engine.callStep, Engine.blockIndex, hp, h15, if_false, hsucc]
      exact ⟨by decide, by omega⟩
  | expand n hn hf hp ht =>
    by_cases h63 : e.t = 63
    · simp [Engine.callStep, Engine.blockIndex, hp, h63]
    · have hsucc : (e.t + 1).toNat = e.t.toNat + 1 := t_succ_toNat h63
      simp only [Phase.between_iff, Engine.callStep, Engine.blockIndex, hp, h63, if_false, hsucc]
      exact ⟨by decide, by omega⟩
  | rinit hf hp => simp [Engine.callStep, Engine.blockIndex, hp]
  | round hf hp =>
    by_cases h63 : e.t = 63
    · simp [Engine.callStep, Engine.blockIndex, hp, h63]
    · have hsucc : (e.t + 1).toNat = e.t.toNat + 1 := t_succ_toNat h63
      simp only [Phase.between_iff, Engine.callStep, Engine.blockIndex, hp, h63, if_false, hsucc]
      exact ⟨by decide, by omega⟩
  | hacc hf hp =>
    have hblock := h.inv.block (by simp [hp])
    have hk : (e.off.value + 64).toNat / 64 = e.off.value.toNat / 64 + 1 := by rw [hblock.off_succ]; omega
    split <;> simp only [Phase.between_iff, Engine.callStep, Engine.blockIndex, hp, hk]
    all_goals exact ⟨by decide, by omega⟩

/-- One step of a busy call: the sequencer's turn touches the engine alone, stays in the call and counts one. -/
theorem Engine.Calling.seqTurn {m : List Byte} {s : State} (h : s.eng.Calling s.config m) (hm : m.length < 2 ^ 61)
    (hb : s.eng.busy = true) :
    ∃ e, seqTurn s = .next { s with eng := e } ∧ e.Calling s.config m ∧ e.callStep = s.eng.callStep + 1 := by
  obtain ⟨e, he, hme⟩ := seqTurn_outcome (s := s) h.inv
  have ⟨hin, hcount⟩ := hme.callStep h hm hb
  exact ⟨e, he, ⟨hme.inv h.inv, h.loaded.micro hme, hme.hashing h.inv h.hashing, hme.noFault h.loaded h.noFault, hin⟩,
    hcount⟩

/-- A call with no host action pending runs on, one count a step, as long as its steps last. -/
theorem Engine.Calling.run {m : List Byte} (hm : m.length < 2 ^ 61) {n : Nat} {s : State}
    (h : s.eng.Calling s.config m) (ha : s.agenda = []) (hn : s.eng.callStep + n ≤ callSteps m.length) :
    ∃ e, Sys2Proof.core.run n s = .next { s with eng := e } ∧ e.Calling s.config m ∧
      e.callStep = s.eng.callStep + n := by
  induction n generalizing s with
  | zero => exact ⟨s.eng, rfl, h, rfl⟩
  | succ n ih =>
    have hb : s.eng.busy = true := by
      by_contra hb
      have := h.callStep_done (h.done_of_not_busy (by simpa using hb))
      omega
    obtain ⟨e, he, hcall, hcount⟩ := h.seqTurn hm hb
    obtain ⟨e', hrun, hcall', hcount'⟩ := ih (s := { s with eng := e }) hcall ha (by show e.callStep + n ≤ _; omega)
    exact ⟨e', (run_succ_of_next ((step_of_nil ha).trans he) n).trans hrun, hcall', hcount'.trans (by
      show e.callStep + n = _; omega)⟩

/-- START, issued outside a call on an engine that is not halted (R213). -/
theorem step_startTurn {s : State} {rest : List Turn} (hf : s.eng.fault = .noFault) (hb : s.eng.busy = false)
    (ha : s.agenda = startTurn :: rest) :
    step s = .next { s with
      eng := { s.eng with errcode := .noError, t := 0, phase := .chklen }
      agenda := rest, replies := s.replies ++ [.ack] } := by
  have hdec : decodeCommand (commandWord 0x03 0 0) = .ok .start := by decide
  rw [step_of_cons ha, startTurn, takeTurn, commandTurn, hdec]
  show execStart _ = _
  rw [execStart, unlessHalted_of_noFault _ (by exact hf), if_neg (by simpa using hb), State.reply]

/-- START on a loaded message begins its call at count 0. -/
theorem Engine.Calling.start {c : Config} {m : List Byte} {e : Engine} (h : e.Inv c) (hl : e.Loaded c m)
    (hf : e.fault = .noFault) :
    ({ e with errcode := .noError, t := 0, phase := .chklen } : Engine).Calling c m where
  inv := h.start
  loaded := hl.congr rfl rfl
  hashing := hl.congr rfl rfl
  noFault := hf
  inCall := by simp

/-- The call that START begins on a loaded message, after each number of steps up to its last (R194). -/
theorem run_call {m : List Byte} {s : State} (h : s.Inv) (hm : m.length < 2 ^ 61) (hl : s.eng.Loaded s.config m)
    (hf : s.eng.fault = .noFault) (hb : s.eng.busy = false) (ha : s.agenda = [startTurn]) {n : Nat}
    (hn : n ≤ callSteps m.length) :
    ∃ e, Sys2Proof.core.run (1 + n) s =
        .next { s with eng := e, agenda := [], replies := s.replies ++ [.ack] } ∧
      e.Calling s.config m ∧ e.callStep = n := by
  have hstart := step_startTurn hf hb ha
  obtain ⟨e, hrun, hcall, hcount⟩ := Engine.Calling.run hm
    (s := { s with
      eng := { s.eng with errcode := .noError, t := 0, phase := .chklen }
      agenda := [], replies := s.replies ++ [.ack] }) (Engine.Calling.start h hl hf) rfl
    (n := n) (by simpa [Engine.callStep] using hn)
  exact ⟨e, (run_add (run_one hstart) n).trans hrun, hcall, by simpa [Engine.callStep] using hcount⟩

/-- A call whose steps are all completed is in DONE. -/
theorem Engine.Calling.done {c : Config} {m : List Byte} {e : Engine} (h : e.Calling c m)
    (hcount : e.callStep = callSteps m.length) : e.phase = .done := by
  refine h.done_of_not_busy (Bool.eq_false_iff.mpr fun hb => ?_)
  have := h.callStep_lt hb
  omega

/-- The whole call on a loaded message ends in DONE with the hash of all its blocks (R194, R200). -/
theorem run_call_done {m : List Byte} {s : State} (h : s.Inv) (hm : m.length < 2 ^ 61) (hl : s.eng.Loaded s.config m)
    (hf : s.eng.fault = .noFault) (hb : s.eng.busy = false) (ha : s.agenda = [startTurn]) :
    ∃ t : State, Sys2Proof.core.run (1 + callSteps m.length) s = .next t ∧ t.eng.phase = .done ∧
      values t.eng.h = hashAfter m (blockCount m.length) := by
  obtain ⟨e, hrun, hcall, hcount⟩ := run_call h hm hl hf hb ha (Nat.le_refl _)
  have hdone := hcall.done hcount
  have hhash := hcall.hashing
  simp only [Engine.Hashing, hdone] at hhash
  exact ⟨_, hrun, hdone, hhash.1⟩

/-- Settles O54: both calls end with the fold of `compress` over the blocks of the one message, which no earlier
history enters. -/
theorem digestIsIndependentOfHistory : Obligations.DigestIsIndependentOfHistory := by
  intro m s₁ s₂ h₁ h₂ hm hl₁ hl₂ hf₁ hf₂ hb₁ hb₂ ha₁ ha₂
  obtain ⟨t₁, hrun₁, hdone₁, hhash₁⟩ := run_call_done h₁ hm hl₁ hf₁ hb₁ ha₁
  obtain ⟨t₂, hrun₂, hdone₂, hhash₂⟩ := run_call_done h₂ hm hl₂ hf₂ hb₂ ha₂
  exact ⟨t₁, t₂, hrun₁, hrun₂, hdone₁, hdone₂, hhash₁.trans hhash₂.symm⟩

end Sys2Proof.Machine

/-! Every step keeps the invariant, whatever the host does (44_sequencer.md R193, 10_state.md R33, R41). -/

namespace Sys2Proof.Machine

/-- Outside a call PHASE lies in no range of the phases of a call (R36). -/
theorem Engine.not_between_of_not_busy {e : Engine} {lo hi : Nat} (hb : e.busy = false) (hlo : 1 ≤ lo)
    (hhi : hi ≤ 9) :
    ¬ e.phase.between lo hi := by
  rintro ⟨h1, h2⟩
  rcases (busy_eq_false_iff e).mp hb with hp | hp | hp <;> simp [hp] at h1 h2 <;> omega

/-- A byte written within the capacity leaves the written bytes within it (20_memory.md R61). -/
theorem Memory.write_in_range {m : Memory} {n a : Nat} {v : Byte} (h : ∀ k b, Memory.read m k = some b → k < n)
    (ha : a < n) : ∀ k b, Memory.read (Memory.write m a v) k = some b → k < n := by
  intro k b hr
  rw [Memory.read_write] at hr
  split at hr
  · next heq => exact heq ▸ ha
  · exact h k b hr

/-- A host command keeps the invariant: LEN and MSG change only outside a call, where R193 (a) and (b) ask nothing of
them (R75, R193). -/
theorem CommandEffect.inv {c : Config} {e e' : Engine} (h : e.Inv c) (hm : CommandEffect c e e') : e'.Inv c := by
  cases hm with
  | same => exact h
  | fault f hf hf' => exact { h with }
  | msg a v hf hb ha =>
    exact { h with
      msg_canonical := Memory.write_wf a v h.msg_canonical
      msg_in_range := Memory.write_in_range h.msg_in_range ha }
  | len v hf hb =>
    exact { h with
      len_checked := fun hin => absurd hin (Engine.not_between_of_not_busy hb (by decide) (by decide))
      plen_planned := fun hin => absurd hin (Engine.not_between_of_not_busy hb (by decide) (by decide)) }
  | start hf hb => exact h.start

/-- The engine after the reset event meets the invariant, whatever the capacity (R43). -/
theorem Engine.reset_inv (c : Config) : Engine.reset.Inv c :=
  Engine.inv_of_unplanned (by simp [Engine.reset]) List.Pairwise.nil (fun _ _ hr => by cases hr)
    (by simp [Engine.reset]) rfl (by simp [Engine.reset])

/-- Settles O47: a step is a host command, the reset event or the sequencer's turn, and each keeps the invariant. -/
theorem everyStepKeepsTheInvariant : Obligations.EveryStepKeepsTheInvariant := by
  intro s t h hs
  obtain ⟨hconfig, -, hcase⟩ := step_cases h hs
  show t.eng.Inv t.config
  rw [hconfig]
  rcases hcase with ⟨w, rest, ha, hcommand, -⟩ | ⟨rest, ha, hreset, -⟩ | ⟨ha, hmicro, -⟩
  · exact hcommand.inv h
  · rw [hreset]; exact Engine.reset_inv s.config
  · exact hmicro.inv h

end Sys2Proof.Machine

/-! Which instruction may write which piece of state (10_state.md R20, R42). -/

namespace Sys2Proof.Machine

/-- FAULT may go from `f` to `g`: it is written over 0 alone (R34). -/
def FaultCode.MayBecome (f g : FaultCode) : Prop := g ≠ f → f = .noFault

theorem FaultCode.MayBecome.refl (f : FaultCode) : f.MayBecome f := fun hne => absurd rfl hne

/-- `raiseFault` keeps the first code (R238). -/
theorem raiseFault_mayBecome (f : FaultCode) (s : State) : s.eng.fault.MayBecome (raiseFault f s).eng.fault := by
  intro hne
  by_contra hf
  exact hne (by rw [raiseFault_of_faulted f hf])

/-- What each instruction may write of the engine: the written-by column of R20, read by instruction. A field an
instruction does not name stays. -/
inductive MayWrite (e : Engine) : Instr → Engine → Prop
  | wrmsg (a d m f) : e.fault.MayBecome f →
      MayWrite e (.wrmsg a d) { e with msg := m, fault := f }
  | wrlen (v l f) : e.fault.MayBecome f →
      MayWrite e (.wrlen v) { e with len := l, fault := f }
  | start (x t p f) : e.fault.MayBecome f →
      MayWrite e .start { e with errcode := x, t := t, phase := p, fault := f }
  | rdstat : MayWrite e .rdstat e
  | rddig (i f) : e.fault.MayBecome f → MayWrite e (.rddig i) { e with fault := f }
  | chklen (x p) : MayWrite e .chklen { e with errcode := x, phase := p }
  | plan (l o p) : MayWrite e .plan { e with plen := l, off := o, phase := p }
  | hinit (h p) : MayWrite e .hinit { e with h := h, phase := p }
  | padblk (b t p f) : e.fault.MayBecome f →
      MayWrite e .padblk { e with blk := b, t := t, phase := p, fault := f }
  | wload (w t p) : MayWrite e .wload { e with w := w, t := t, phase := p }
  | wexp (w t p) : MayWrite e .wexp { e with w := w, t := t, phase := p }
  | rinit (r t p) : MayWrite e .rinit { e with r := r, t := t, phase := p }
  | round (r t p) : MayWrite e .round { e with r := r, t := t, phase := p }
  | hacc (h o p) : MayWrite e .hacc { e with h := h, off := o, phase := p }

/-- If `o` is a next state, it differs from `s` in what `i` may write, and in the responses. -/
def WritesOnly (i : Instr) (s : State) (o : Host.Outcome State Fault Refusal) : Prop :=
  ∀ t, o = .next t → t.config = s.config ∧ t.agenda = s.agenda ∧ MayWrite s.eng i t.eng

/-- A next state with the parameters and the agenda of `s`. -/
theorem WritesOnly.of_next {i : Instr} {s t : State} (hw : MayWrite s.eng i t.eng) (hc : t.config = s.config := by rfl)
    (ha : t.agenda = s.agenda := by rfl) : WritesOnly i s (.next t) := by
  rintro _ ⟨⟩
  exact ⟨hc, ha, hw⟩

/-- A stop has no next state. -/
theorem WritesOnly.of_stop {i : Instr} {s : State} {r : Fault} : WritesOnly i s (.fault r) := by
  rintro _ ⟨⟩

/-- A command that faults writes FAULT over 0. -/
theorem WritesOnly.of_fault {i : Instr} {s : State} {f : FaultCode}
    (hw : MayWrite s.eng i { s.eng with fault := f }) (hf : s.eng.fault = .noFault) :
    WritesOnly i s (.next (commandFault f s)) := by
  rw [commandFault_of_noFault f hf]
  exact .of_next hw

/-- Every command passes the halted test first (R210). -/
theorem WritesOnly.of_unlessHalted {i : Instr} {s body : State} (hw : MayWrite s.eng i s.eng)
    (h : s.eng.fault = .noFault → WritesOnly i s (.next body)) : WritesOnly i s (unlessHalted s body) := by
  by_cases hf : s.eng.fault = .noFault
  · rw [unlessHalted_of_noFault body hf]; exact h hf
  · rw [unlessHalted_of_faulted body hf]; exact .of_next hw

theorem execWrmsg_writesOnly (a : DWord) (d : Byte) (s : State) : WritesOnly (.wrmsg a d) s (execWrmsg a d s) := by
  refine .of_unlessHalted (.wrmsg a d s.eng.msg s.eng.fault (.refl _)) fun hf => ?_
  split
  · exact .of_fault (.wrmsg a d s.eng.msg _ fun _ => hf) hf
  · split
    · exact .of_fault (.wrmsg a d s.eng.msg _ fun _ => hf) hf
    · next m _ => exact .of_next (.wrmsg a d m s.eng.fault (.refl _))

theorem execWrlen_writesOnly (v : DWord) (s : State) : WritesOnly (.wrlen v) s (execWrlen v s) := by
  refine .of_unlessHalted (.wrlen v s.eng.len s.eng.fault (.refl _)) fun hf => ?_
  split
  · exact .of_fault (.wrlen v s.eng.len _ fun _ => hf) hf
  · exact .of_next (.wrlen v v s.eng.fault (.refl _))

theorem execStart_writesOnly (s : State) : WritesOnly .start s (execStart s) := by
  refine .of_unlessHalted (.start s.eng.errcode s.eng.t s.eng.phase s.eng.fault (.refl _)) fun hf => ?_
  split
  · exact .of_fault (.start s.eng.errcode s.eng.t s.eng.phase _ fun _ => hf) hf
  · exact .of_next (.start .noError 0 .chklen s.eng.fault (.refl _))

theorem execRddig_writesOnly (x : DWord) (s : State) : WritesOnly (.rddig x) s (execRddig x s) := by
  refine .of_unlessHalted (.rddig x s.eng.fault (.refl _)) fun hf => ?_
  split
  · split
    · exact .of_next (.rddig x s.eng.fault (.refl _))
    · exact .of_fault (.rddig x _ fun _ => hf) hf
  · exact .of_fault (.rddig x _ fun _ => hf) hf

theorem execChklen_writesOnly (s : State) : WritesOnly .chklen s (execChklen s) := by
  unfold execChklen
  split
  · exact .of_next (.chklen .inputTooLarge .error)
  · exact .of_next (.chklen s.eng.errcode .plan)

theorem execPlan_writesOnly (s : State) : WritesOnly .plan s (execPlan s) := by
  unfold execPlan
  split
  · exact .of_stop
  · exact .of_next (.plan ..)

/-- PADBLK writes BLK, T and PHASE, or FAULT over 0 (R125, R238). -/
theorem execPadblk_writesOnly (s : State) : WritesOnly .padblk s (execPadblk s) := by
  unfold execPadblk
  split
  · split
    · next f _ =>
      have hkeep := raiseFault_mayBecome f s
      rw [raiseFault_eq] at hkeep ⊢
      exact .of_next (.padblk s.eng.blk s.eng.t s.eng.phase _ hkeep)
    · exact .of_next (.padblk _ _ _ s.eng.fault (.refl _))
  · exact .of_stop

theorem execWload_writesOnly (s : State) : WritesOnly .wload s (execWload s) := by
  unfold execWload
  split
  · rw [loopStep_eq]; exact .of_next (.wload ..)
  · exact .of_stop

theorem execWexp_writesOnly (s : State) : WritesOnly .wexp s (execWexp s) := by
  unfold execWexp
  split
  · rw [loopStep_eq]; exact .of_next (.wexp ..)
  · exact .of_stop

theorem execRound_writesOnly (s : State) : WritesOnly .round s (execRound s) := by
  rw [execRound_eq]; exact .of_next (.round ..)

theorem execHacc_writesOnly (s : State) : WritesOnly .hacc s (execHacc s) := by
  unfold execHacc
  split
  · exact .of_next (.hacc ..)
  · exact .of_stop

/-- Every instruction writes only what R20 lists for it. -/
theorem exec_writesOnly (i : Instr) (s : State) : WritesOnly i s (exec i s) := by
  cases i with
  | wrmsg a d => exact execWrmsg_writesOnly a d s
  | wrlen v => exact execWrlen_writesOnly v s
  | start => exact execStart_writesOnly s
  | rdstat => exact .of_next .rdstat
  | rddig x => exact execRddig_writesOnly x s
  | chklen => exact execChklen_writesOnly s
  | plan => exact execPlan_writesOnly s
  | hinit => exact .of_next (.hinit ..)
  | padblk => exact execPadblk_writesOnly s
  | wload => exact execWload_writesOnly s
  | wexp => exact execWexp_writesOnly s
  | rinit => exact .of_next (.rinit ..)
  | round => exact execRound_writesOnly s
  | hacc => exact execHacc_writesOnly s

/-- Settles O43: the written-by column of R20 is read off `MayWrite`, instruction by instruction. -/
theorem onlyItsWritersChangeAState : Obligations.OnlyItsWritersChangeAState := by
  intro i s t h
  obtain ⟨hconfig, hagenda, hw⟩ := exec_writesOnly i s t h
  refine ⟨hconfig, hagenda, ?_⟩
  generalize t.eng = e' at hw
  cases hw with
  | wrmsg _ _ _ _ hfault | wrlen _ _ _ hfault | start _ _ _ _ hfault | rddig _ _ hfault
  | padblk _ _ _ _ hfault => simpa [FaultCode.MayBecome] using hfault
  | _ => simp

end Sys2Proof.Machine

/-! The flags (10_state.md R36) and the state after reset (R43). -/

namespace Sys2Proof.Machine

theorem done_eq_true_iff (e : Engine) : e.done = true ↔ e.phase = .done := by
  unfold Engine.done; cases e.phase <;> simp

theorem err_eq_true_iff (e : Engine) : e.err = true ↔ e.phase = .error := by
  unfold Engine.err; cases e.phase <;> simp

theorem faulted_eq_true_iff (e : Engine) : e.faulted = true ↔ e.fault ≠ .noFault := by
  unfold Engine.faulted; cases e.fault <;> simp [FaultCode.code]

/-- BUSY is 1 exactly in the phases of a call (R36). -/
theorem busy_eq_true_iff (e : Engine) :
    e.busy = true ↔ e.phase ≠ .idle ∧ e.phase ≠ .done ∧ e.phase ≠ .error := by
  rw [← Bool.not_eq_false, busy_eq_false_iff]; simp

/-- Settles O22: BUSY, DONE and ERR read off PHASE three sets of phases that do not meet, and IDLE is in none. -/
theorem statusFlagsExcludeEachOther : Obligations.StatusFlagsExcludeEachOther := by
  intro e
  refine ⟨?_, ?_, ?_, ?_, faulted_eq_true_iff e⟩
  · rw [busy_eq_true_iff, done_eq_true_iff]
    rintro ⟨⟨-, hne, -⟩, hp⟩
    exact hne hp
  · rw [busy_eq_true_iff, err_eq_true_iff]
    rintro ⟨⟨-, -, hne⟩, hp⟩
    exact hne hp
  · rw [done_eq_true_iff, err_eq_true_iff]
    rintro ⟨hd, he⟩
    cases hd.symm.trans he
  · rw [← Bool.not_eq_true e.done, ← Bool.not_eq_true e.err, busy_eq_false_iff, done_eq_true_iff, err_eq_true_iff]
    cases e.phase <;> decide

/-- Nothing of the register files and sequencer registers is written after reset (R40). -/
theorem Engine.reset_unwritten :
    (∀ i : Fin 8, Engine.reset.r[i].written = false ∧ Engine.reset.h[i].written = false) ∧
    (∀ j : Fin 64, Engine.reset.w[j].written = false ∧ Engine.reset.blk[j].written = false) ∧
    Engine.reset.plen.written = false ∧ Engine.reset.off.written = false := by
  simp [Engine.reset, Slot.unwritten]

/-- After reset the sequencer is idle: with no host action pending a step changes nothing (R43). -/
theorem step_reset : step State.reset = .next State.reset :=
  (step_of_nil rfl).trans (seqTurn_of_disabled (.inl ((busy_eq_false_iff _).mpr (.inl rfl))))

/-- Settles O13: the control registers and STATUS by evaluation, the unwritten elements by `Engine.reset_unwritten`, the
idle sequencer by `step_reset`. -/
theorem resetLeavesTheSpecsValues : Obligations.ResetLeavesTheSpecsValues := by
  obtain ⟨hrh, hwblk, hplen, hoff⟩ := Engine.reset_unwritten
  exact ⟨rfl, rfl, rfl, rfl, rfl, by decide, by decide, by decide, by decide, by decide,
    hrh, hwblk, hplen, hoff, fun _ => rfl, step_reset⟩

end Sys2Proof.Machine

/-! MSG and LEN are constant during a call (20_memory.md R75), and a step runs the decoded instruction (R192, R210). -/

namespace Sys2Proof.Machine

/-- A PHASE code has one spelling: what the sequencer decodes from it is encoded as that code (R104). -/
theorem encode_of_decodeMicro {c : MicroCode} {i : Instr} (h : decodeMicro c = .ok i) : encode i = .mo c := by
  unfold decodeMicro at h
  repeat' split at h
  all_goals cases h
  all_goals subst c; rfl

/-- No micro-operation writes LEN or MSG (R20, R75), from any state, the invariant or not. -/
theorem exec_len_msg_of_micro {i : Instr} {c : MicroCode} {s t : State} (hi : encode i = .mo c)
    (h : exec i s = .next t) : t.eng.len = s.eng.len ∧ t.eng.msg = s.eng.msg := by
  obtain ⟨-, -, hw⟩ := exec_writesOnly i s t h
  generalize t.eng = e' at hw
  cases hw with
  | wrmsg | wrlen | start | rdstat | rddig => cases hi
  | _ => exact ⟨rfl, rfl⟩

/-- The sequencer's turn leaves LEN and MSG, from any state, the invariant or not (R75). -/
theorem seqTurn_len_msg {s t : State} (h : seqTurn s = .next t) :
    t.eng.len = s.eng.len ∧ t.eng.msg = s.eng.msg := by
  unfold seqTurn at h
  split at h
  · split at h
    · next i hi => exact exec_len_msg_of_micro (encode_of_decodeMicro hi) h
    · cases h; exact ⟨rfl, rfl⟩
  · cases h; exact ⟨rfl, rfl⟩

/-- During a call no command changes LEN or MSG: WRLEN and WRMSG are accepted outside one only (R211, R212). -/
theorem CommandEffect.len_msg_of_busy {c : Config} {e e' : Engine} (hm : CommandEffect c e e') (hb : e.busy = true) :
    e'.len = e.len ∧ e'.msg = e.msg := by
  cases hm with
  | same | fault | start => exact ⟨rfl, rfl⟩
  | msg _ _ _ hidle | len _ _ hidle => cases hb.symm.trans hidle

/-- Settles O45: a step that is not the reset event is the sequencer's turn, which never writes LEN or MSG, or a command,
which does so only outside a call. -/
theorem messageIsConstantDuringACall : Obligations.MessageIsConstantDuringACall := by
  intro s t hb hreset hs
  refine And.symm ?_
  cases ha : s.agenda with
  | nil => exact seqTurn_len_msg ((step_of_nil ha).symm.trans hs)
  | cons turn rest =>
    rw [step_of_cons ha] at hs
    cases turn with
    | command w =>
      obtain ⟨u, r, hu, -, -, -, hm⟩ := commandTurn_outcome w { s with agenda := rest }
      cases hu.symm.trans hs
      exact hm.len_msg_of_busy hb
    | reset => exact absurd ha (hreset rest)
    | seq => exact seqTurn_len_msg (s := { s with agenda := rest }) hs

/-- A command word that decodes runs its instruction (R210). -/
theorem commandTurn_runs {w : CommandWord} {i : Instr} (hi : decodeCommand w = .ok i) (s : State) :
    commandTurn w s = exec i s := by
  rw [commandTurn, hi]

/-- Settles O7: `step_of_cons` and `step_of_nil` give the turn, `commandTurn_runs` and `seqTurn_runs` the instruction it
runs. -/
theorem stepRunsTheDecodedInstruction : Obligations.StepRunsTheDecodedInstruction := by
  intro s i rest
  refine ⟨fun w ha hi => ?_, fun ha hb hf hi => ?_, fun ha hb hf hi => ?_⟩
  · exact (step_of_cons ha).trans (commandTurn_runs hi _)
  · exact (step_of_cons ha).trans (seqTurn_runs (s := { s with agenda := rest }) hb hf hi)
  · exact (step_of_nil ha).trans (seqTurn_runs hb hf hi)

end Sys2Proof.Machine

/-! Decoding and encoding are inverse to each other (30_encoding.md R101, R104, R110). -/

namespace Sys2Proof

/-- The decoder reads a command word that `encode` writes back as the instruction it was written for (R101). -/
theorem decodeCommand_of_encode {i : Instr} {w : CommandWord} (hwf : i.wf = true) (henc : encode i = .hc w) :
    decodeCommand w = .ok i := by
  cases i with
  | wrmsg a d => cases henc; simp [decodeCommand]
  | wrlen v => cases henc; simp [decodeCommand]
  | start => cases henc; decide
  | rdstat => cases henc; decide
  | rddig x =>
    cases henc
    have hidx : ¬ 31 < x.toNat := Nat.not_lt.mpr (of_decide_eq_true hwf)
    simp [decodeCommand, hidx]
  | _ => cases henc

/-- The decoder reads a PHASE code that `encode` writes back as its micro-operation (R104). -/
theorem decodeMicro_of_encode {i : Instr} {c : MicroCode} (henc : encode i = .mo c) : decodeMicro c = .ok i := by
  cases i with
  | wrmsg | wrlen | start | rdstat | rddig => cases henc
  | _ => cases henc; rfl

/-- A micro-operation has no operand, so nothing makes it ill-formed (R104). -/
theorem wf_of_encode_micro {i : Instr} {c : MicroCode} (henc : encode i = .mo c) : i.wf = true := by
  cases i with
  | wrmsg | wrlen | start | rdstat | rddig => cases henc
  | _ => rfl

/-- A command word whose opcode and operands are known is the command word of these. -/
theorem commandWord_of_fields {w : CommandWord} {op : Byte} {a : DWord} {b : Byte} (hop : opField w = op)
    (ha : aField w = a) (hb : bField w = b) : commandWord op a b = w := by
  rw [← hop, ← ha, ← hb, commandWord_fields]

/-- A command word that decodes is the encoding of the well-formed instruction it decodes to: every branch of the
decoder has fixed the opcode and the operands its instruction does not carry (R101, R108). -/
theorem wf_and_encode_of_decodeCommand {w : CommandWord} {i : Instr} (h : decodeCommand w = .ok i) :
    i.wf = true ∧ encode i = .hc w := by
  unfold decodeCommand at h
  repeat' split at h
  all_goals cases h
  · next hop => exact ⟨rfl, congrArg Code.hc (commandWord_of_fields hop rfl rfl)⟩
  · next hop hb => exact ⟨rfl, congrArg Code.hc (commandWord_of_fields hop rfl (not_not.mp hb))⟩
  · next hop ha hb => exact ⟨rfl, congrArg Code.hc (commandWord_of_fields hop (not_not.mp ha) (not_not.mp hb))⟩
  · next hop ha hb => exact ⟨rfl, congrArg Code.hc (commandWord_of_fields hop (not_not.mp ha) (not_not.mp hb))⟩
  · next hop hidx hb =>
    exact ⟨decide_eq_true (Nat.not_lt.mp hidx), congrArg Code.hc (commandWord_of_fields hop rfl (not_not.mp hb))⟩

/-- Settles O2: a command word is taken apart into the fields it was put together from, and the PHASE codes of the nine
micro-operations are pairwise different. -/
theorem decodeEncodeGivesBack : Obligations.DecodeEncodeGivesBack := by
  intro i hwf
  cases henc : encode i with
  | hc w => exact decodeCommand_of_encode hwf henc
  | mo c => exact decodeMicro_of_encode henc

/-- Settles O3: the decoder's branches fix every bit of the code that the instruction does not carry. -/
theorem encodeDecodeGivesBack : Obligations.EncodeDecodeGivesBack := by
  intro c i h
  cases c with
  | hc w => exact wf_and_encode_of_decodeCommand h
  | mo c =>
    have henc := Machine.encode_of_decodeMicro h
    exact ⟨wf_of_encode_micro henc, henc⟩

end Sys2Proof

/-! The opcode map row by row (R101, R104). -/

namespace Sys2Proof

/-- The encoding of every well-formed instruction selects its own row of the table (R113). -/
theorem encode_selects_row (i : Instr) : Laws.EncodeSelectsRow.Statement i := by
  cases i with
  | wrmsg a d => exact Laws.EncodeSelectsRow.wrmsg a d
  | wrlen v => exact Laws.EncodeSelectsRow.wrlen v
  | start => exact Laws.EncodeSelectsRow.start
  | rdstat => exact Laws.EncodeSelectsRow.rdstat
  | rddig x => exact Laws.EncodeSelectsRow.rddig x
  | chklen => exact Laws.EncodeSelectsRow.chklen
  | plan => exact Laws.EncodeSelectsRow.plan
  | hinit => exact Laws.EncodeSelectsRow.hinit
  | padblk => exact Laws.EncodeSelectsRow.padblk
  | wload => exact Laws.EncodeSelectsRow.wload
  | wexp => exact Laws.EncodeSelectsRow.wexp
  | rinit => exact Laws.EncodeSelectsRow.rinit
  | round => exact Laws.EncodeSelectsRow.round
  | hacc => exact Laws.EncodeSelectsRow.hacc

/-- A field that the mask covers whole is the pattern's. -/
theorem eq_pattern_of_mask_allOnes {n : Nat} {x mask pattern : BitVec n} (hmask : mask = BitVec.allOnes n)
    (h : x &&& mask = pattern) : x = pattern := by
  rwa [hmask, BitVec.and_allOnes] at h

/-- A word that selects a row has the row's opcode, since every mask covers the opcode (R101). -/
theorem opField_of_selects {r : CommandRow} {w : CommandWord} (hr : r ∈ commandRows) (hsel : r.selects w = true) :
    opField w = opField r.pattern := by
  obtain ⟨hop, -, -⟩ := (CommandRow.selects_iff r w).mp hsel
  exact eq_pattern_of_mask_allOnes (commandRows_mask_op r hr) hop

/-- No word selects two rows (R101). -/
theorem row_eq_of_selects {r q : CommandRow} {w : CommandWord} (hr : r ∈ commandRows) (hq : q ∈ commandRows)
    (hsr : r.selects w = true) (hsq : q.selects w = true) : r = q := by
  by_contra hne
  have : Std.Symm fun r q : CommandRow => opField r.pattern ≠ opField q.pattern := ⟨fun _ _ => Ne.symm⟩
  exact commandRows_disjoint.forall hr hq hne ((opField_of_selects hr hsr).symm.trans (opField_of_selects hq hsq))

/-- A word that selects a row is the encoding of a well-formed instruction of the row: the mask leaves out the operands
that the instruction carries and no other bit (R101). -/
theorem encode_of_selects {r : CommandRow} {w : CommandWord} (hr : r ∈ commandRows) (hsel : r.selects w = true) :
    ∃ i : Instr, i.wf = true ∧ encode i = .hc w ∧ i.mnemonic = r.mnemonic := by
  have hop := opField_of_selects hr hsel
  obtain ⟨-, ha, hb⟩ := (CommandRow.selects_iff r w).mp hsel
  simp only [commandRows, List.mem_cons, List.not_mem_nil, or_false] at hr
  rcases hr with rfl | rfl | rfl | rfl | rfl
  · exact ⟨.wrmsg (aField w) (bField w), rfl, congrArg Code.hc (commandWord_of_fields hop rfl rfl), rfl⟩
  · have hb0 : bField w = 0 := eq_pattern_of_mask_allOnes (by decide) hb
    exact ⟨.wrlen (aField w), rfl, congrArg Code.hc (commandWord_of_fields hop rfl hb0), rfl⟩
  · have ha0 : aField w = 0 := eq_pattern_of_mask_allOnes (by decide) ha
    have hb0 : bField w = 0 := eq_pattern_of_mask_allOnes (by decide) hb
    exact ⟨.start, rfl, congrArg Code.hc (commandWord_of_fields hop ha0 hb0), rfl⟩
  · have ha0 : aField w = 0 := eq_pattern_of_mask_allOnes (by decide) ha
    have hb0 : bField w = 0 := eq_pattern_of_mask_allOnes (by decide) hb
    exact ⟨.rdstat, rfl, congrArg Code.hc (commandWord_of_fields hop ha0 hb0), rfl⟩
  · have hidx : (aField w).toNat ≤ 31 := (index_mask_iff (aField w)).mp ha
    have hb0 : bField w = 0 := eq_pattern_of_mask_allOnes (by decide) hb
    exact ⟨.rddig (aField w), decide_eq_true hidx, congrArg Code.hc (commandWord_of_fields hop rfl hb0), rfl⟩

/-- Settles O4: decoding and encoding are inverse, the encoding selects its instruction's row (`encode_selects_row`),
and a word that selects a row is such an encoding (`encode_of_selects`). -/
theorem commandWordSelectsItsRow : Obligations.CommandWordSelectsItsRow := by
  refine fun w => ⟨fun i hi => ?_, fun r hr hsel => ?_, fun r hr q hq => row_eq_of_selects hr hq⟩
  · obtain ⟨hwf, henc⟩ := wf_and_encode_of_decodeCommand hi
    have hrow := encode_selects_row i hwf
    rw [henc] at hrow
    obtain ⟨r, hr, hname, hsel⟩ := hrow
    exact ⟨r, hr, hsel, hname⟩
  · obtain ⟨i, hwf, henc, hname⟩ := encode_of_selects hr hsel
    exact ⟨i, decodeCommand_of_encode hwf henc, hname⟩

/-- What the decoder makes of the sixteen PHASE codes (R104): a table small enough to evaluate. -/
theorem decodeMicro_table : ∀ c : MicroCode,
    ((decodeMicro c).toOption.isSome = true ↔ 1 ≤ c.toNat ∧ c.toNat ≤ 9) ∧
    (decodeMicro c = .error .restPhase ↔ c = 0 ∨ c = 10 ∨ c = 11) ∧
    (decodeMicro c = .error .reservedPhase ↔ 12 ≤ c.toNat) := by decide

/-- Settles O5: the sixteen codes of `decodeMicro_table`; a code names an operation where the decoder answers one. -/
theorem restAndReservedCodesNameNoOperation : Obligations.RestAndReservedCodesNameNoOperation := by
  intro c
  obtain ⟨hok, herr⟩ := decodeMicro_table c
  refine ⟨Iff.trans ?_ hok, herr⟩
  cases decodeMicro c <;> simp [Except.toOption]

/-! ### The ten bytes of a command word (R100) -/

/-- One more byte of a word, after those above it, gives the word down to and including that byte (R69, R100). -/
theorem pushByte_commandByte (w : CommandWord) {n : Nat} (hn : n < 10) :
    pushByte (w >>> (80 - 8 * n)) (commandByte w n) = w >>> (80 - 8 * (n + 1)) := by
  apply BitVec.eq_of_getLsbD_eq
  intro i hi
  simp only [pushByte, commandByte, BitVec.getLsbD_or, BitVec.getLsbD_shiftLeft, BitVec.getLsbD_ushiftRight,
    BitVec.getLsbD_setWidth, BitVec.getLsbD_extractLsb']
  rcases Nat.lt_or_ge i 8 with h8 | h8
  · simp [hi, h8, show 80 - 8 * (n + 1) + i = 72 - 8 * n + i by omega]
  · simp [hi, Nat.not_lt.mpr h8, show 80 - 8 * (n + 1) + i = 80 - 8 * n + (i - 8) by omega]

/-- The first `n` bytes put together are the word's top `8 * n` bits. -/
theorem foldl_pushByte_range (w : CommandWord) {n : Nat} (hn : n ≤ 10) :
    ((List.range n).map (commandByte w)).foldl pushByte 0 = w >>> (80 - 8 * n) := by
  induction n with
  | zero => exact (BitVec.ushiftRight_eq_zero (Nat.le_refl 80)).symm
  | succ n ih =>
    rw [List.range_succ, List.map_append, List.foldl_append, ih (by omega)]
    exact pushByte_commandByte w (by omega)

/-- The ten bytes put together are the word (R100). -/
theorem foldl_pushByte_commandBytes (w : CommandWord) : (commandBytes w).foldl pushByte 0 = w :=
  foldl_pushByte_range w (Nat.le_refl 10)

@[simp] theorem commandBytes_length (w : CommandWord) : (commandBytes w).length = 10 := by simp [commandBytes]

theorem commandBytes_getElem? (w : CommandWord) {k : Nat} (hk : k < 10) :
    (commandBytes w)[k]? = some (commandByte w k) := by
  simp [commandBytes, hk]

/-- Byte `k + 1` of a command word is byte `k` of its operand A, big-endian (R100). -/
theorem commandByte_succ (w : CommandWord) {k : Nat} (hk : k < 8) :
    commandByte w (k + 1) = Machine.be64byte (aField w) k := by
  apply BitVec.eq_of_getLsbD_eq
  intro i hi
  simp [commandByte, Machine.be64byte, aField, hi, show 56 - 8 * k + i < 64 by omega,
    show 72 - 8 * (k + 1) + i = 8 + (56 - 8 * k + i) by omega]

/-- Decoding a command word's bytes is decoding the word; the bytes after them are left over (R110). -/
theorem decodeBytes_commandBytes (w : CommandWord) (rest : List Byte) :
    decodeBytes (commandBytes w ++ rest) = (decodeCommand w).map fun i => (i, rest) := by
  have hlen : ¬ (commandBytes w ++ rest).length < 10 := by simp
  rw [decodeBytes, if_neg hlen, List.take_left' (commandBytes_length w), List.drop_left' (commandBytes_length w),
    foldl_pushByte_commandBytes]
  cases decodeCommand w <;> rfl

/-- Settles O6: the bytes are the word's fields, and `foldl_pushByte_commandBytes` puts the word together again. -/
theorem commandWordCrossesAsTenBytes : Obligations.CommandWordCrossesAsTenBytes := fun w rest =>
  ⟨commandBytes_length w, commandBytes_getElem? w (by decide), commandBytes_getElem? w (by decide),
    fun k => (commandBytes_getElem? w (by omega)).trans (congrArg some (commandByte_succ w k.isLt)),
    decodeBytes_commandBytes w rest⟩

/-- Settles O1: fourteen words, each decoded by evaluation. -/
theorem tableWordsDecode : Obligations.TableWordsDecode := by
  unfold Obligations.TableWordsDecode
  decide +kernel

end Sys2Proof

/-! The layout of STATUS (30_encoding.md R103). -/

namespace Sys2Proof.Machine

/-- The four flags stand at bits 4 to 7 of STATUS (R103). -/
theorem Engine.status_flags (e : Engine) :
    e.status.getLsbD 4 = e.busy ∧ e.status.getLsbD 5 = e.done ∧ e.status.getLsbD 6 = e.err ∧
      e.status.getLsbD 7 = e.faulted := by
  simp only [Engine.status, BitVec.getLsbD_append, BitVec.getLsbD_ofBool]
  simp

/-- The codes and T stand above and below the flags of STATUS (R103). Above a field the append is dropped by
`extractLsb'_append_eq_of_add_le`, below it by `extractLsb'_append_eq_of_le`. -/
theorem Engine.status_fields (e : Engine) :
    e.status.extractLsb' 0 4 = e.phase.code ∧ e.status.extractLsb' 8 8 = e.errcode.code ∧
      e.status.extractLsb' 16 8 = e.fault.code ∧ e.status.extractLsb' 24 6 = e.t ∧
      e.status.extractLsb' 30 2 = 0 := by
  unfold Engine.status
  refine ⟨?_, ?_, ?_, ?_, ?_⟩
  · rw [BitVec.extractLsb'_append_eq_of_add_le (by decide), BitVec.extractLsb'_eq_self]
  · iterate 5 rw [BitVec.extractLsb'_append_eq_of_le (by decide)]
    rw [BitVec.extractLsb'_append_eq_of_add_le (by decide), BitVec.extractLsb'_eq_self]
  · iterate 6 rw [BitVec.extractLsb'_append_eq_of_le (by decide)]
    rw [BitVec.extractLsb'_append_eq_of_add_le (by decide), BitVec.extractLsb'_eq_self]
  · iterate 7 rw [BitVec.extractLsb'_append_eq_of_le (by decide)]
    rw [BitVec.extractLsb'_append_eq_of_add_le (by decide), BitVec.extractLsb'_eq_self]
  · iterate 8 rw [BitVec.extractLsb'_append_eq_of_le (by decide)]
    rfl

/-- Settles O21: the fields by `Engine.status_fields`, the flags by `Engine.status_flags` and their definitions
(R36). -/
theorem statusHasItsLayout : Obligations.StatusHasItsLayout := by
  intro e
  obtain ⟨hbusy, hdone, herr, hfaulted⟩ := e.status_flags
  obtain ⟨hphase, herrcode, hfault, ht, hzero⟩ := e.status_fields
  have hdone' : e.done = decide (e.phase.code.toNat = 10) := by unfold Engine.done; cases e.phase <;> rfl
  have herr' : e.err = decide (e.phase.code.toNat = 11) := by unfold Engine.err; cases e.phase <;> rfl
  have hfaulted' : e.faulted = decide (e.fault ≠ .noFault) := by
    rw [Bool.eq_iff_iff, faulted_eq_true_iff, decide_eq_true_iff]
  exact ⟨hphase, hbusy, hdone.trans hdone', herr.trans herr', hfaulted.trans hfaulted', herrcode, hfault, ht, hzero⟩

end Sys2Proof.Machine

/-! Every command returns one response (30_encoding.md R102). -/

namespace Sys2Proof.Machine

/-- The response a command may return, by what its word decodes to and the value of FAULT after it (R102, R210): Ack
from WRMSG, WRLEN and START and the byte from RDDIG, both with FAULT = 0; the STATUS word from RDSTAT, whatever FAULT
holds; and Nak from every other command, where it ends with FAULT set. -/
inductive Answer (d : Except DecodeReject Instr) (f : FaultCode) : Response → Prop
  | ack (i : Instr) : d = .ok i → (∃ a b, i = .wrmsg a b) ∨ (∃ v, i = .wrlen v) ∨ i = .start → f = .noFault →
      Answer d f .ack
  | status (v : Word) : d = .ok .rdstat → Answer d f (.data32 v)
  | digest (x : DWord) (b : Byte) : d = .ok (.rddig x) → f = .noFault → Answer d f (.data8 b)
  | nak : d ≠ .ok .rdstat → f ≠ .noFault → Answer d f .nak

/-- `o` is a next state with one more response than `s`, an answer to a command that decodes to `d`. -/
def Answered (d : Except DecodeReject Instr) (s : State) (o : Host.Outcome State Fault Refusal) : Prop :=
  ∃ t r, o = .next t ∧ t.replies = s.replies ++ [r] ∧ Answer d t.eng.fault r

/-- A command that faults is answered Nak, with FAULT set. -/
theorem Answered.of_fault {d : Except DecodeReject Instr} {s : State} {f : FaultCode} (hd : d ≠ .ok .rdstat)
    (h : s.eng.fault = .noFault) (hf : f ≠ .noFault) : Answered d s (.next (commandFault f s)) :=
  ⟨_, .nak, rfl, commandFault_replies f s, .nak hd (by simpa [h] using hf)⟩

/-- On a halted engine every command but RDSTAT is answered Nak (R210 step 3). -/
theorem Answered.of_unlessHalted {d : Except DecodeReject Instr} {s body : State} (hd : d ≠ .ok .rdstat)
    (h : s.eng.fault = .noFault → Answered d s (.next body)) : Answered d s (unlessHalted s body) := by
  by_cases hf : s.eng.fault = .noFault
  · rw [unlessHalted_of_noFault body hf]; exact h hf
  · rw [unlessHalted_of_faulted body hf]; exact ⟨_, .nak, rfl, rfl, .nak hd hf⟩

theorem execWrmsg_answered (a : DWord) (b : Byte) (s : State) :
    Answered (.ok (.wrmsg a b)) s (execWrmsg a b s) := by
  refine .of_unlessHalted (by simp) fun hf => ?_
  split
  · exact .of_fault (by simp) hf (by decide)
  · rw [hostWrite_eq]
    split
    · next f hw => split at hw <;> cases hw; exact .of_fault (by simp) hf (by decide)
    · exact ⟨_, .ack, rfl, rfl, .ack _ rfl (.inl ⟨a, b, rfl⟩) hf⟩

theorem execWrlen_answered (v : DWord) (s : State) : Answered (.ok (.wrlen v)) s (execWrlen v s) := by
  refine .of_unlessHalted (by simp) fun hf => ?_
  split
  · exact .of_fault (by simp) hf (by decide)
  · exact ⟨_, .ack, rfl, rfl, .ack _ rfl (.inr (.inl ⟨v, rfl⟩)) hf⟩

theorem execStart_answered (s : State) : Answered (.ok .start) s (execStart s) := by
  refine .of_unlessHalted (by simp) fun hf => ?_
  split
  · exact .of_fault (by simp) hf (by decide)
  · exact ⟨_, .ack, rfl, rfl, .ack _ rfl (.inr (.inr rfl)) hf⟩

theorem execRddig_answered (x : DWord) (s : State) : Answered (.ok (.rddig x)) s (execRddig x s) := by
  refine .of_unlessHalted (by simp) fun hf => ?_
  split
  · split
    · exact ⟨_, .data8 _, rfl, rfl, .digest x _ rfl hf⟩
    · exact .of_fault (by simp) hf (by decide)
  · exact .of_fault (by simp) hf (by decide)

/-- Every command word, legal or not, is answered by what it decodes to (R102, R210). -/
theorem commandTurn_answered (w : CommandWord) (s : State) : Answered (decodeCommand w) s (commandTurn w s) := by
  unfold commandTurn
  split
  · next i hi =>
    rw [hi]
    rcases decodeCommand_ok_cases hi with ⟨a, b, rfl⟩ | ⟨v, rfl⟩ | rfl | rfl | ⟨x, rfl⟩
    · exact execWrmsg_answered a b s
    · exact execWrlen_answered v s
    · exact execStart_answered s
    · exact ⟨_, _, rfl, rfl, .status _ rfl⟩
    · exact execRddig_answered x s
  · next r hr =>
    rw [hr]
    exact .of_unlessHalted (by simp) fun hf => .of_fault (by simp) hf (by decide)

/-! ### The sequencer and the host port -/

/-- No micro-operation reads or writes the host port: from the same engine with any agenda and any responses it does the
same and leaves them as they are (log 3, log 5). -/
theorem exec_frame_of_micro {i : Instr} {c : MicroCode} {s t : State} (hi : encode i = .mo c)
    (h : exec i s = .next t) (a : List Turn) (r : List Response) :
    exec i { s with agenda := a, replies := r } = .next { t with agenda := a, replies := r } := by
  cases i with
  | wrmsg | wrlen | start | rdstat | rddig => cases hi
  | hinit | rinit | round => cases h; rfl
  | chklen =>
    simp only [exec, execChklen] at h ⊢
    split at h <;> cases h
    · next hl => exact if_pos hl
    · next hl => exact if_neg hl
  | plan =>
    simp only [exec, execPlan] at h ⊢
    split at h <;> cases h
    next hl => exact if_neg hl
  | padblk =>
    simp only [exec, execPadblk] at h ⊢
    split at h
    · split at h <;> cases h
      · next f hc => simp only [*, if_true, raiseFault_eq]
      · next v hc => simp only [*, if_true]
    · cases h
  | wload =>
    simp only [exec, execWload] at h ⊢
    split at h <;> cases h
    next ht => exact dif_pos ht
  | wexp =>
    simp only [exec, execWexp] at h ⊢
    split at h <;> cases h
    next ht => exact if_pos ht
  | hacc =>
    simp only [exec, execHacc] at h ⊢
    split at h <;> cases h
    next ho => exact if_pos ho

/-- The sequencer's turn neither reads nor writes the host port, from any state, the invariant or not. -/
theorem seqTurn_frame {s t : State} (h : seqTurn s = .next t) (a : List Turn) (r : List Response) :
    seqTurn { s with agenda := a, replies := r } = .next { t with agenda := a, replies := r } := by
  unfold seqTurn at h ⊢
  split at h
  · next hen =>
    rw [if_pos (by exact hen)]
    split at h
    · next i hi => simpa only [hi] using exec_frame_of_micro (encode_of_decodeMicro hi) h a r
    · next x hx => cases h; simp only [hx]
  · next hen => cases h; exact if_neg hen

/-- The sequencer's turn leaves the responses (log 5). -/
theorem seqTurn_replies {s t : State} (h : seqTurn s = .next t) : t.replies = s.replies := by
  have hsame : t = { t with agenda := s.agenda, replies := s.replies } :=
    Host.Outcome.next.inj (h.symm.trans (seqTurn_frame h s.agenda s.replies))
  rw [hsame]

/-- Settles O20: a command's clauses are read off its `Answer`; the other turns are the reset event and the sequencer's,
which leave the responses. -/
theorem everyCommandReturnsOneResponse : Obligations.EveryCommandReturnsOneResponse := by
  refine fun s => ⟨fun w rest ha => ?_, fun t hother hs => ?_⟩
  · obtain ⟨t, r, ht, hr, hanswer⟩ := commandTurn_answered w { s with agenda := rest }
    refine ⟨t, r, (step_of_cons ha).trans ht, hr, ?_⟩
    cases hanswer with
    | ack i hi hkind hf =>
      have hne : decodeCommand w ≠ .ok .rdstat := by
        rw [hi]; rcases hkind with ⟨a, b, rfl⟩ | ⟨v, rfl⟩ | rfl <;> simp
      exact ⟨fun _ => ⟨i, hi, hkind⟩, by simp [hne], by simp, by simp [hf]⟩
    | status v hi => simp [hi]
    | digest x b hi hf => simp [hi, hf]
    | nak hi hf => simp [hi, hf]
  · cases ha : s.agenda with
    | nil => exact seqTurn_replies ((step_of_nil ha).symm.trans hs)
    | cons turn rest =>
      rw [step_of_cons ha] at hs
      cases turn with
      | command w => exact absurd ha (hother w rest)
      | reset => cases hs; rfl
      | seq => exact seqTurn_replies (s := { s with agenda := rest }) hs

end Sys2Proof.Machine

/-! The host's procedure (45_host_commands.md R217): what a list of turns does to the engine and which responses it
brings, part by part of the script (30_encoding.md R112). -/

namespace Sys2Proof.Machine

/-- Under the parameters `c` the turns `turns` take the engine from `e` to `e'` and bring the responses
`rs`, whatever turns stand after them and whatever responses came before. -/
def Plays (c : Config) (turns : List Turn) (e e' : Engine) (rs : List Response) : Prop :=
  ∀ rest before,
    Sys2Proof.core.run turns.length ⟨c, e, turns ++ rest, before⟩ = .next ⟨c, e', rest, before ++ rs⟩

section
variable {c : Config} {e e' u : Engine} {rs rs' : List Response}

theorem Plays.nil : Plays c [] e e [] := fun _ before => by rw [List.append_nil]; rfl

/-- One list of turns after another. -/
theorem Plays.append {a b : List Turn} (ha : Plays c a e u rs) (hb : Plays c b u e' rs') :
    Plays c (a ++ b) e e' (rs ++ rs') := by
  intro rest before
  rw [List.length_append, List.append_assoc, run_add (ha (b ++ rest) before), hb rest (before ++ rs), List.append_assoc]

/-- One turn before others. -/
theorem Plays.cons {turn : Turn} {turns : List Turn} (h : Plays c [turn] e u rs) (ht : Plays c turns u e' rs') :
    Plays c (turn :: turns) e e' (rs ++ rs') := h.append ht

/-- A single turn is a step. -/
theorem Plays.of_takeTurn {turn : Turn}
    (h : ∀ rest before, takeTurn ⟨c, e, rest, before⟩ turn = .next ⟨c, e', rest, before ++ rs⟩) :
    Plays c [turn] e e' rs := fun rest before => run_one (h rest before)

/-- The command word of a well-formed instruction runs it (R101, R210). -/
theorem Plays.of_exec {i : Instr} {w : CommandWord} (hwf : i.wf = true) (henc : encode i = .hc w)
    (h : ∀ rest before, exec i ⟨c, e, rest, before⟩ = .next ⟨c, e', rest, before ++ rs⟩) :
    Plays c [.command w] e e' rs :=
  .of_takeTurn fun rest before => (commandTurn_runs (decodeCommand_of_encode hwf henc) _).trans (h rest before)

/-- The sequencer's turn brings no response. -/
theorem Plays.of_seqTurn {a : List Turn} {r : List Response} (h : seqTurn ⟨c, e, a, r⟩ = .next ⟨c, e', a, r⟩) :
    Plays c [.seq] e e' [] :=
  .of_takeTurn fun rest before => by rw [List.append_nil]; exact seqTurn_frame h rest before

end

/-- A run keeps the invariant (R193). -/
theorem State.Inv.run {n : Nat} {s t : State} (h : s.Inv) (hrun : Sys2Proof.core.run n s = .next t) : t.Inv := by
  induction n generalizing s with
  | zero => cases hrun; exact h
  | succ n ih =>
    cases hs : step s with
    | next u => exact ih (everyStepKeepsTheInvariant s u h hs) ((run_succ_of_next hs n).symm.trans hrun)
    | fault r => simp only [Host.Core.run, core, hs] at hrun; cases hrun
    | refused r => simp only [Host.Core.run, core, hs] at hrun; cases hrun

/-- The turns of a host keep the invariant. -/
theorem Plays.inv {c : Config} {turns : List Turn} {e e' : Engine} {rs : List Response} (hp : Plays c turns e e' rs)
    (h : e.Inv c) : e'.Inv c :=
  State.Inv.run (s := ⟨c, e, turns ++ [], []⟩) h (hp [] [])

/-! ### LOAD -/

/-- Memory after the bytes `bs` were written from address `p` on. -/
def Memory.writeFrom : Memory → Nat → List Byte → Memory
  | m, _, [] => m
  | m, p, b :: bs => Memory.writeFrom (Memory.write m p b) (p + 1) bs

/-- Bytes below the first address written stay. -/
theorem Memory.read_writeFrom_below {m : Memory} {p a : Nat} {bs : List Byte} (h : a < p) :
    Memory.read (Memory.writeFrom m p bs) a = Memory.read m a := by
  induction bs generalizing m p with
  | nil => rfl
  | cons b bs ih => exact (ih (Nat.lt_succ_of_lt h)).trans (Memory.read_write_other m b (Nat.ne_of_lt h))

/-- Every byte written is read back. -/
theorem Memory.read_writeFrom {m : Memory} {p i : Nat} {bs : List Byte} {b : Byte} (h : bs[i]? = some b) :
    Memory.read (Memory.writeFrom m p bs) (p + i) = some b := by
  induction bs generalizing m p i with
  | nil => cases h
  | cons b' bs ih =>
    cases i with
    | zero =>
      cases h
      exact (Memory.read_writeFrom_below (Nat.lt_succ_self p)).trans (Memory.read_write_same m p b)
    | succ i =>
      rw [show p + (i + 1) = p + 1 + i by omega]
      exact ih h

/-- The 64 bits of operand A hold every address of message memory (R7, R100). -/
theorem Config.toNat_ofNat_address {c : Config} {p : Nat} (hp : p < c.msgCapacity) : (BitVec.ofNat 64 p).toNat = p := by
  have hlast := c.lastMsgAddr.isLt
  unfold Config.msgCapacity at hp
  rw [BitVec.toNat_ofNat, Nat.mod_eq_of_lt (by omega)]

section
variable {c : Config} {e : Engine} (hf : e.fault = .noFault) (hb : e.busy = false)
include hf hb

/-- WRMSG outside a call, in range (R211). -/
theorem plays_wrmsg {p : Nat} (b : Byte) (hp : p < c.msgCapacity) :
    Plays c [.command (commandWord 0x01 (BitVec.ofNat 64 p) b)] e { e with msg := Memory.write e.msg p b } [.ack] := by
  refine .of_exec (i := .wrmsg (BitVec.ofNat 64 p) b) rfl rfl fun rest before => ?_
  rw [exec, execWrmsg, unlessHalted_of_noFault _ (by exact hf), if_neg (by simpa using hb), hostWrite_eq,
    Config.toNat_ofNat_address hp, if_neg (by simpa using hp)]
  rfl

/-- WRLEN outside a call (R212). -/
theorem plays_wrlen (v : DWord) : Plays c [.command (commandWord 0x02 v 0)] e { e with len := v } [.ack] := by
  refine .of_exec (i := .wrlen v) rfl rfl fun rest before => ?_
  rw [exec, execWrlen, unlessHalted_of_noFault _ (by exact hf), if_neg (by simpa using hb)]
  rfl

/-- START outside a call (R213). -/
theorem plays_start : Plays c [startTurn] e { e with errcode := .noError, t := 0, phase := .chklen } [.ack] :=
  fun rest before => run_one (step_startTurn (s := ⟨c, e, startTurn :: rest, before⟩) hf hb rfl)

/-- The WRMSGs of LOAD outside a call, where all their addresses are in range: an Ack for each byte (R112, R211). -/
theorem plays_writeTurns {p : Nat} {bs : List Byte} (hp : p + bs.length ≤ c.msgCapacity) :
    Plays c (writeTurns p bs) e { e with msg := Memory.writeFrom e.msg p bs } (List.replicate bs.length .ack) := by
  induction bs generalizing e p with
  | nil => exact .nil
  | cons b bs ih =>
    rw [List.length_cons] at hp
    exact (plays_wrmsg hf hb b (by omega)).cons
      (ih (e := { e with msg := Memory.write e.msg p b }) hf hb (p := p + 1) (by omega))

/-- LOAD outside a call, of a message that fits: an Ack for each byte and for WRLEN, and the message is loaded (R112,
R217). -/
theorem plays_loadTurns {m : List Byte} (hm : m.length < 2 ^ 61) (hfit : m.length ≤ c.msgCapacity) :
    ∃ e' : Engine, Plays c (loadTurns m) e e' (List.replicate (m.length + 1) .ack) ∧ e'.Loaded c m ∧
      e'.fault = .noFault ∧ e'.busy = false := by
  have hwrite := plays_writeTurns (c := c) hf hb (p := 0) (bs := m) (by omega)
  have hload := hwrite.append (plays_wrlen (e := { e with msg := Memory.writeFrom e.msg 0 m }) hf hb
    (BitVec.ofNat 64 m.length))
  rw [← List.replicate_succ'] at hload
  refine ⟨_, hload, { len_eq := ?_, in_range := hfit, bytes := fun i b h => ?_ }, hf, hb⟩
  · show (BitVec.ofNat 64 m.length).toNat = m.length
    rw [BitVec.toNat_ofNat, Nat.mod_eq_of_lt (by omega)]
  · simpa using Memory.read_writeFrom (m := e.msg) (p := 0) h

end

/-! ### WAIT -/

/-- RDSTAT, in every phase (R214). -/
theorem plays_rdstat (c : Config) (e : Engine) : Plays c [rdstatTurn] e e [.data32 e.status] :=
  .of_exec (i := .rdstat) rfl rfl fun _ _ => rfl

/-- One poll after each step of a call, as long as its steps last: one STATUS a poll, the last the STATUS after the last
step (R112, R217). -/
theorem Engine.Calling.plays_waitTurns {c : Config} {m : List Byte} (hm : m.length < 2 ^ 61) {n : Nat} {e : Engine}
    (h : e.Calling c m) (hn : e.callStep + n ≤ callSteps m.length) :
    ∃ (e' : Engine) (polls : List Word), Plays c (waitTurns n) e e' (polls.map .data32) ∧
      polls.length = n ∧ polls.getLastD e.status = e'.status ∧ e'.Calling c m ∧ e'.callStep = e.callStep + n := by
  induction n generalizing e with
  | zero => exact ⟨e, [], .nil, rfl, rfl, h, rfl⟩
  | succ n ih =>
    have hb : e.busy = true := by
      by_contra hb
      have := h.callStep_done (h.done_of_not_busy (by simpa using hb))
      omega
    obtain ⟨u, hseq, hcall, hcount⟩ := Engine.Calling.seqTurn (s := ⟨c, e, [], []⟩) h hm hb
    have hcount : u.callStep = e.callStep + 1 := hcount
    obtain ⟨e', polls, hwait, hlen, hlast, hcall', hcount'⟩ := ih hcall (by omega)
    exact ⟨e', u.status :: polls, (Plays.of_seqTurn hseq).cons ((plays_rdstat c u).cons hwait), by simp [hlen],
      List.getLastD_cons.trans hlast, hcall', by omega⟩

/-- STATUS at the end of a call: PHASE and the DONE flag, all else 0 (R103, R200). -/
theorem Engine.Calling.status_done {c : Config} {m : List Byte} {e : Engine} (h : e.Calling c m)
    (hp : e.phase = .done) : e.status = 0x0000002A := by
  have ht : e.t = 0 := by simpa [hp, tInRange] using h.inv.t_range
  have herr : e.errcode = .noError := h.inv.errcode_eq (by simp [hp])
  simp [Engine.status, Engine.busy, Engine.done, Engine.err, Engine.faulted, ErrCode.code, FaultCode.code, hp, ht, herr,
    h.noFault]

/-! ### GETDIGEST -/

section
variable {c : Config} {e : Engine} (hf : e.fault = .noFault) (hd : e.phase = .done)
include hf hd

/-- RDDIG in DONE (R215). -/
theorem plays_rddig (i : Fin 32) : Plays c [rddigTurn i] e e [.data8 (digestByte (values e.h) i)] := by
  have hidx : (BitVec.ofNat 64 i.val).toNat = i.val := by rw [BitVec.toNat_ofNat, Nat.mod_eq_of_lt (by omega)]
  refine .of_exec (i := .rddig (BitVec.ofNat 64 i.val)) (decide_eq_true (by omega)) rfl fun rest before => ?_
  rw [exec, execRddig, unlessHalted_of_noFault _ (by exact hf), dif_pos (by omega), if_pos (by exact hd)]
  simp only [hidx]
  rfl

/-- RDDIGs in DONE, one byte each. -/
theorem plays_rddigTurns (is : List (Fin 32)) :
    Plays c (is.map fun i => rddigTurn i.val) e e (is.map fun i => .data8 (digestByte (values e.h) i)) := by
  induction is with
  | nil => exact .nil
  | cons i is ih => exact (plays_rddig hf hd i).cons ih

/-- GETDIGEST in DONE: the 32 bytes of the digest (R112, R215). -/
theorem plays_getDigestTurns : Plays c getDigestTurns e e ((digestBytes (values e.h)).map .data8) := by
  have := plays_rddigTurns (c := c) hf hd (List.finRange 32)
  rw [getDigestTurns, ← List.map_coe_finRange_eq_range, digestBytes, List.ofFn_eq_map, List.map_map, List.map_map]
  exact this

end

/-- Settles O56: LOAD, START, WAIT and GETDIGEST one after another; the call of the loaded message has completed its
steps when the polls end, so the last shows DONE and H is the hash of all blocks. -/
theorem hostProcedureReturnsSha256 : Obligations.HostProcedureReturnsSha256 := by
  intro m s h hm hfit hf hb ha
  obtain ⟨e₁, hload, hloaded, hf₁, hb₁⟩ := plays_loadTurns hf hb hm hfit
  have hcall := Engine.Calling.start (hload.inv h) hloaded hf₁
  obtain ⟨e₂, polls, hwait, hlen, hlast, hcall₂, hcount⟩ :=
    hcall.plays_waitTurns hm (n := callSteps m.length) (by simp [Engine.callStep])
  have hdone : e₂.phase = .done := hcall₂.done (by simpa [Engine.callStep] using hcount)
  have hhash := hcall₂.hashing
  simp only [Engine.Hashing, hdone] at hhash
  have hplay : Plays s.config (hashTurns m (callSteps m.length)) s.eng e₂ _ :=
    ((hload.append (plays_start hf₁ hb₁)).append hwait).append (plays_getDigestTurns hcall₂.noFault hdone)
  have hrun := hplay [] s.replies
  rw [List.append_nil, ← ha] at hrun
  refine ⟨_, polls, hrun, hlen, ?_, ?_⟩
  · rw [hhash.1, ← List.replicate_succ', sha256]
    simp only [List.append_assoc]
  · rw [hcall₂.status_done hdone] at hlast
    cases polls with
    | nil => rw [callSteps, List.length_nil] at hlen; omega
    | cons v vs => rw [List.getLast?_cons, ← List.getLastD_eq_getLast?, ← hlast, List.getLastD_cons]

end Sys2Proof.Machine

/-! The padding unit: CHKLEN, PLAN and PADBLK one by one, the padded length, and the two padding procedures
(40_padding_unit.md R121 to R127). -/

namespace Sys2Proof.Machine

/-- A readable message byte of PAD is the byte that memory holds (R124). -/
theorem padByte_ok_message {c : Config} {e : Engine} {p : Nat} {b : Byte} (hp : p < e.len.toNat)
    (h : padByte c e p = .ok b) : Memory.read e.msg p = some b :=
  (engineRead_ok_iff.mp ((padByte_message hp).symm.trans h)).2

/-- Byte `p` of the length field, counted from the end of PAD, as a number (R91, R124). -/
theorem padByte_ok_length {c : Config} {e : Engine} {p : Nat} {b : Byte} (hroom : e.len.toNat + 9 ≤ e.plen.value.toNat)
    (hfield : e.plen.value.toNat - 8 ≤ p) (hend : p < e.plen.value.toNat) (h : padByte c e p = .ok b) :
    b.toNat = e.len.toNat * 8 % 2 ^ 64 / 2 ^ (8 * (e.plen.value.toNat - 1 - p)) % 256 := by
  obtain rfl : be64byte (e.len <<< 3) (p - (e.plen.value.toNat - 8)) = b :=
    Except.ok.inj ((padByte_length (by omega) hfield).symm.trans h)
  have hshift : 56 - 8 * (p - (e.plen.value.toNat - 8)) = 8 * (e.plen.value.toNat - 1 - p) := by omega
  rw [be64byte_toNat, bitLength_toNat, hshift]

/-- Settles O28: all 64 bytes of PAD can be read, so `execPadblk_of_ok` gives the step; each range of PAD then gives its
byte of the block. -/
theorem padblkFillsTheBlock : Obligations.PadblkFillsTheBlock := by
  intro s hplen hoff hmsg
  have hread : ∀ j : Fin 64, ∃ b, padByte s.config s.eng (s.eng.off.value.toNat + j) = .ok b := fun j =>
    padByte_ok fun hlt => hmsg _ (by omega) (by omega) hlt
  choose g hg using hread
  have hv : ∀ j (h : j < 64), padByte s.config s.eng (s.eng.off.value.toNat + j) = .ok (Vector.ofFn g)[j] :=
    fun j h => by rw [Vector.getElem_ofFn]; exact hg ⟨j, h⟩
  refine ⟨_, execPadblk_of_ok ((padDefined_iff s.eng).mpr ⟨hplen, hoff⟩) hv, fun j => ?_⟩
  have hj := hv j j.isLt
  simp only [Fin.getElem_fin, putAll_getElem]
  refine ⟨trivial, fun hlt => padByte_ok_message hlt hj, fun heq => ?_, fun hgt hz => ?_, fun hf => ?_⟩
  · exact Except.ok.inj (hj.symm.trans (padByte_marker heq))
  · exact Except.ok.inj (hj.symm.trans (padByte_zero hgt hz))
  · exact padByte_ok_length hplen hf (by omega) hj

/-- Settles O29: the bytes before `j` can be read and byte `j` fails as the engine's read does (R62), so PADBLK raises
that fault. -/
theorem padblkFaultsAtTheFirstBadByte : Obligations.PadblkFaultsAtTheFirstBadByte := by
  intro s j hnf hplen hoff hj hlt hbefore
  have hfault : ∀ f, engineRead s.config s.eng.msg (s.eng.off.value.toNat + j) = .error f →
      exec .padblk s = .next { s with eng := { s.eng with fault := f } } := fun f hr => by
    rw [← raiseFault_of_noFault f hnf]
    exact execPadblk_of_error ((padDefined_iff s.eng).mpr ⟨hplen, hoff⟩) hj (padByte_error_iff.mpr ⟨hlt, hr⟩)
      fun i hi => padByte_ok fun _ => hbefore i hi
  exact ⟨fun hrange => hfault _ (by rw [engineRead_eq, if_pos hrange]),
    fun hin hnone => hfault _ (by rw [engineRead_eq, if_neg (by omega), hnone, Option.elim_none])⟩

/-- The number of zeros between marker and length field, as each of the two procedures counts them (R123 c). -/
theorem padLen_zeros (l : Nat) : padLen l - l - 9 = (55 + 64 - l % 64) % 64 := by
  unfold padLen; omega

/-- The padded buffer is as long as PLAN computes (R120). -/
theorem pad_length (m : List Byte) : (pad m).length = padLen m.length := by
  have hb := padLen_bounds m.length
  simp [pad]; omega

/-- Settles O30: the procedures differ in how they count the zeros, and both counts are one (`padLen_zeros`). -/
theorem paddingProceduresAgree : Obligations.PaddingProceduresAgree := by
  intro m _
  have hb := padLen_bounds m.length
  refine ⟨by rw [pad, padAppend, padLen_zeros], pad_length m, ?_, ?_⟩ <;> rw [pad_length] <;> omega

/-- Settles O31 by `Engine.Loaded.padByte_eq`. -/
theorem padIsTheWholeBuffer : Obligations.PadIsTheWholeBuffer :=
  fun _ _ _ _ hloaded _ hplen hp => hloaded.padByte_eq hplen hp

/-- Settles O24: the two branches of CHKLEN's test. -/
theorem chklenTestsTheLength : Obligations.ChklenTestsTheLength :=
  fun _ => ⟨execChklen_of_lt, execChklen_of_ge⟩

/-- Settles O25: PLAN writes `paddedLength`, which is exact for a checked length. -/
theorem planComputesThePaddedLength : Obligations.PlanComputesThePaddedLength :=
  fun s hl => ⟨paddedLength s.eng.len, paddedLength_toNat hl, execPlan_of_lt hl⟩

/-- A message whose last bytes leave room for marker and length field needs one more block (R123 d). -/
theorem blockCount_of_le {l : Nat} (h : l % 64 ≤ 55) : blockCount l = l / 64 + 1 := by
  unfold blockCount padLen; omega

/-- A message whose last bytes leave no room for marker and length field needs two more blocks (R123 d). -/
theorem blockCount_of_ge {l : Nat} (h : 56 ≤ l % 64) : blockCount l = l / 64 + 2 := by
  unfold blockCount padLen; omega

/-- Settles O26: (b) is `padLen_bounds`, (c) `padLen_zeros`, (d) the two lemmas on `blockCount`; (e) and (f) follow from
(b), since `padLen` is a multiple of 64. -/
theorem paddedLengthArithmetic : Obligations.PaddedLengthArithmetic := by
  intro l _
  obtain ⟨hroom, hmax, hmul⟩ := padLen_bounds l
  have hceil : padLen l = 64 * ((l + 72) / 64) := by unfold padLen; omega
  exact ⟨hceil, hmul, hroom, hmax, by omega, padLen_zeros l, blockCount_of_le, blockCount_of_ge, by omega, by omega⟩

/-- Settles O27: each length by its remainder modulo 64. -/
theorem boundaryBlockCounts : Obligations.BoundaryBlockCounts :=
  ⟨blockCount_of_le (by decide), blockCount_of_le (by decide), blockCount_of_ge (by decide), blockCount_of_ge (by decide),
    blockCount_of_le (by decide), blockCount_of_le (by decide), blockCount_of_ge (by decide)⟩

end Sys2Proof.Machine

/-! The schedule expander: its two bit functions, WLOAD and WEXP (41_schedule_expander.md R142 to R145), and the running
hash at every step of a call (44_sequencer.md R193 f). -/

namespace Sys2Proof.Machine

/-! ### The running hash -/

/-- A loaded message says nothing of FAULT. -/
theorem Engine.loaded_fault_iff {c : Config} {m : List Byte} {e : Engine} (f : FaultCode) :
    ({ e with fault := f } : Engine).Loaded c m ↔ e.Loaded c m :=
  ⟨fun h => h.congr rfl rfl, fun h => h.congr rfl rfl⟩

/-- A fault leaves the running hash (R238). -/
theorem Engine.Hashing.fault {c : Config} {m : List Byte} {e : Engine} (hh : e.Hashing c m) (f : FaultCode) :
    ({ e with fault := f } : Engine).Hashing c m := by
  simpa only [Engine.Hashing, Engine.blockIndex, Engine.loaded_fault_iff] using hh

/-- A host command during a call keeps the running hash: at most it raises a fault, since the commands that write
anything else are refused while BUSY (R75, R210). -/
theorem CommandEffect.hashing {c : Config} {m : List Byte} {e e' : Engine} (hb : e.busy = true) (hh : e.Hashing c m)
    (hm : CommandEffect c e e') : e'.Hashing c m := by
  cases hm with
  | same => exact hh
  | fault f _ _ => exact hh.fault f
  | msg a v _ hb' _ => simp [hb] at hb'
  | len v _ hb' => simp [hb] at hb'
  | start _ hb' => simp [hb] at hb'

/-- Settles O49: a step that is not the reset event is a host command or the sequencer's turn, and each keeps the
running hash. -/
theorem everyStepKeepsTheRunningHash : Obligations.EveryStepKeepsTheRunningHash := by
  intro m s t h hb hh hreset hs
  obtain ⟨hconfig, -, hcase⟩ := step_cases h hs
  rw [hconfig]
  rcases hcase with ⟨w, rest, -, hcommand, -⟩ | ⟨rest, ha, -, -⟩ | ⟨-, hmicro, -⟩
  · exact hcommand.hashing hb hh
  · exact absurd ha (hreset rest)
  · exact hmicro.hashing h hh

/-! ### The two schedule functions -/

/-- σ0 bit by bit (R142). -/
theorem ssig0_getLsbD (x : Word) {i : Nat} (hi : i < 32) :
    (ssig0 x).getLsbD i =
      (x.getLsbD ((i + 7) % 32) ^^ x.getLsbD ((i + 18) % 32) ^^ (decide (i ≤ 28) && x.getLsbD (i + 3))) := by
  have hshift : i + 3 < 32 ↔ i ≤ 28 := by omega
  simp only [ssig0, BitVec.getLsbD_xor, rotr_getLsbD, shr_getLsbD, hi, hshift, Nat.reduceLT]

/-- σ1 bit by bit (R143). -/
theorem ssig1_getLsbD (x : Word) {i : Nat} (hi : i < 32) :
    (ssig1 x).getLsbD i =
      (x.getLsbD ((i + 17) % 32) ^^ x.getLsbD ((i + 19) % 32) ^^ (decide (i ≤ 21) && x.getLsbD (i + 10))) := by
  have hshift : i + 10 < 32 ↔ i ≤ 21 := by omega
  simp only [ssig1, BitVec.getLsbD_xor, rotr_getLsbD, shr_getLsbD, hi, hshift, Nat.reduceLT]

/-- A rotation only moves bits, so it goes through xor. -/
theorem rotr_xor (x y : Word) {n : Nat} (hn : 0 < n) (hn' : n < 32) : rotr (x ^^^ y) n = rotr x n ^^^ rotr y n := by
  refine BitVec.eq_of_getLsbD_eq fun i hi => ?_
  simp only [BitVec.getLsbD_xor, rotr_getLsbD _ hn hn' hi]

/-- A shift goes through xor. -/
theorem shr_xor (x y : Word) (n : Nat) : shr (x ^^^ y) n = shr x n ^^^ shr y n :=
  BitVec.ushiftRight_xor_distrib x y n

theorem ssig0_xor (x y : Word) : ssig0 (x ^^^ y) = ssig0 x ^^^ ssig0 y := by
  rw [ssig0, rotr_xor x y (by decide) (by decide), rotr_xor x y (by decide) (by decide), shr_xor, ssig0, ssig0]
  ac_rfl

theorem ssig1_xor (x y : Word) : ssig1 (x ^^^ y) = ssig1 x ^^^ ssig1 y := by
  rw [ssig1, rotr_xor x y (by decide) (by decide), rotr_xor x y (by decide) (by decide), shr_xor, ssig1, ssig1]
  ac_rfl

/-- Settles O34: the bits by `ssig0_getLsbD` and `ssig1_getLsbD`, the corner cases by evaluation, and linearity from
that of rotation and shift. -/
theorem scheduleSigmasBitByBit : Obligations.ScheduleSigmasBitByBit :=
  ⟨fun x _ hi => ⟨ssig0_getLsbD x hi, ssig1_getLsbD x hi⟩, by decide, by decide,
    fun x y => ⟨ssig0_xor x y, ssig1_xor x y⟩⟩

/-! ### WLOAD and WEXP -/

/-- Word `n` of a block as a number (30_encoding.md R92). -/
theorem blockWord_toNat (b : Vector Byte 64) (n : Nat) (h : n < 16) :
    (blockWord b n h).toNat =
      b[4 * n].toNat * 2 ^ 24 + b[4 * n + 1].toNat * 2 ^ 16 + b[4 * n + 2].toNat * 2 ^ 8 + b[4 * n + 3].toNat :=
  be32_toNat ..

/-- Settles O32: WLOAD writes the block's word at T (`execWload_of_lt`), read as a number by `blockWord_toNat`. -/
theorem wloadLoadsABigEndianWord : Obligations.WloadLoadsABigEndianWord := by
  rintro s _ hn rfl
  have hlast : s.eng.t = 15 ↔ s.eng.t.toNat = 15 := t_eq_iff rfl (by decide)
  refine ⟨blockWord (values s.eng.blk) s.eng.t.toNat hn, ?_, ?_⟩
  · simp only [blockWord_toNat, values_getElem]
  · simp only [exec, execWload_of_lt hn, hlast, t_succ rfl]

/-- Settles O33: WEXP writes the recurrence word at T (`execWexp_of_ge`), read as a number by `expandWord_toNat`. -/
theorem wexpExtendsTheSchedule : Obligations.WexpExtendsTheSchedule := by
  intro s n hn ht
  have hlast : s.eng.t = 63 ↔ n = 47 := (t_eq_iff ht (m := 63) (by decide)).trans (by omega)
  have hsucc : s.eng.t + 1 = BitVec.ofNat 6 (n + 17) := t_succ ht
  refine ⟨_, expandWord_toNat .., ?_⟩
  simp only [exec, execWexp_of_ge hn ht, hlast, hsucc]

end Sys2Proof.Machine

/-! The compression pipeline: the four round functions bit by bit, RINIT and ROUND (42_compression_rounds.md R157 to
R162). -/

namespace Sys2Proof.Machine

/-! ### The round functions -/

/-- Σ0 bit by bit (R157). -/
theorem bsig0_getLsbD (x : Word) {i : Nat} (hi : i < 32) :
    (bsig0 x).getLsbD i =
      (x.getLsbD ((i + 2) % 32) ^^ x.getLsbD ((i + 13) % 32) ^^ x.getLsbD ((i + 22) % 32)) := by
  simp only [bsig0, BitVec.getLsbD_xor, rotr_getLsbD, hi, Nat.reduceLT]

/-- Σ1 bit by bit (R158). -/
theorem bsig1_getLsbD (x : Word) {i : Nat} (hi : i < 32) :
    (bsig1 x).getLsbD i =
      (x.getLsbD ((i + 6) % 32) ^^ x.getLsbD ((i + 11) % 32) ^^ x.getLsbD ((i + 25) % 32)) := by
  simp only [bsig1, BitVec.getLsbD_xor, rotr_getLsbD, hi, Nat.reduceLT]

/-- The xor with all ones is the complement (00_scope.md R10). -/
theorem not32_eq_not (x : Word) : not32 x = ~~~x :=
  BitVec.xor_allOnes

/-- Ch is a multiplexer (R159). -/
theorem ch_getLsbD (e f g : Word) {i : Nat} (hi : i < 32) :
    (ch e f g).getLsbD i = if e.getLsbD i then f.getLsbD i else g.getLsbD i := by
  simp only [ch, not32_eq_not, BitVec.getLsbD_xor, BitVec.getLsbD_and, BitVec.getLsbD_not, hi, decide_true,
    Bool.true_and]
  cases e.getLsbD i <;> simp

/-- Maj is a majority: at least two of the three bits (R160). -/
theorem maj_getLsbD (a b c : Word) (i : Nat) :
    (maj a b c).getLsbD i = decide (2 ≤ (a.getLsbD i).toNat + (b.getLsbD i).toNat + (c.getLsbD i).toNat) := by
  have majority : ∀ p q r : Bool,
      ((p && q) ^^ (p && r) ^^ (q && r)) = decide (2 ≤ p.toNat + q.toNat + r.toNat) := by decide
  simp only [maj, BitVec.getLsbD_xor, BitVec.getLsbD_and, majority]

/-- Settles O35: each of the four functions at one bit. -/
theorem roundFunctionsBitByBit : Obligations.RoundFunctionsBitByBit :=
  fun x y z i hi => ⟨bsig0_getLsbD x hi, bsig1_getLsbD x hi, ch_getLsbD x y z hi, maj_getLsbD x y z i⟩

/-! ### RINIT and ROUND -/

/-- Settles O36: RINIT writes every element of R with H's value. -/
theorem rinitCopiesTheHash : Obligations.RinitCopiesTheHash := by
  refine fun s => ⟨putAll (values s.eng.h), fun i => ?_, execRinit_eq s⟩
  simp only [Fin.getElem_fin, putAll_getElem, values_getElem]

/-- Register `a` after a round as a number: one sum modulo 2^32 (R156, R162). -/
theorem add32_roundT1_roundT2_toNat (k w : Word) (r : Vector (Slot 32) 8) :
    (add32 (roundT1 k w (values r)) (roundT2 (values r))).toNat =
      (r[7].value.toNat + (bsig1 r[4].value).toNat + (ch r[4].value r[5].value r[6].value).toNat + k.toNat +
        w.toNat + ((bsig0 r[0].value).toNat + (maj r[0].value r[1].value r[2].value).toNat)) % 2 ^ 32 := by
  simp only [add32_toNat, roundT1_toNat, roundT2_toNat, values_getElem, ← Nat.add_mod]

/-- Register `e` after a round as a number: one sum modulo 2^32 (R156, R162). -/
theorem add32_roundT1_toNat (d k w : Word) (r : Vector (Slot 32) 8) :
    (add32 d (roundT1 k w (values r))).toNat =
      (d.toNat + (r[7].value.toNat + (bsig1 r[4].value).toNat + (ch r[4].value r[5].value r[6].value).toNat +
        k.toNat + w.toNat)) % 2 ^ 32 := by
  simp only [add32_toNat, roundT1_toNat, values_getElem, Nat.add_mod_mod]

/-- The eight slots that a round writes, each from the registers before it (R162). -/
theorem putAll_roundStep (k w : Word) (r : Vector (Slot 32) 8) :
    putAll (roundStep k w (values r)) =
      #v[⟨add32 (roundT1 k w (values r)) (roundT2 (values r)), true⟩, ⟨r[0].value, true⟩, ⟨r[1].value, true⟩,
        ⟨r[2].value, true⟩, ⟨add32 r[3].value (roundT1 k w (values r)), true⟩, ⟨r[4].value, true⟩,
        ⟨r[5].value, true⟩, ⟨r[6].value, true⟩] := by
  simp only [roundStep, values_getElem]
  rfl

/-- Settles O37: ROUND writes the slots of `putAll_roundStep`, with `a` and `e` read as numbers. -/
theorem roundUpdatesAllRegistersAtOnce : Obligations.RoundUpdatesAllRegistersAtOnce := by
  rintro s _ hn rfl
  have hlast : s.eng.t = 63 ↔ s.eng.t.toNat = 63 := t_eq_iff rfl (by decide)
  refine ⟨_, _, add32_roundT1_roundT2_toNat K[s.eng.t.toNat] s.eng.w[s.eng.t.toNat].value s.eng.r,
    add32_roundT1_toNat s.eng.r[3].value K[s.eng.t.toNat] s.eng.w[s.eng.t.toNat].value s.eng.r, ?_⟩
  simp only [exec, execRound_eq, putAll_roundStep, hlast, t_succ rfl]
  rfl

end Sys2Proof.Machine

/-! The whole call on a loaded message (44_sequencer.md R194, R200), and the hash accumulator: HINIT, HACC and the
hexadecimal digest (43_hash_accumulator.md R178 to R181). -/

namespace Sys2Proof.Machine

/-! ### A whole call -/

/-- A call that has not completed its steps is busy (R194). -/
theorem Engine.Calling.busy {c : Config} {m : List Byte} {e : Engine} (h : e.Calling c m)
    (hcount : e.callStep < callSteps m.length) : e.busy = true := by
  by_contra hb
  have := h.callStep_done (h.done_of_not_busy (by simpa using hb))
  omega

/-- Settles O50: `run_call` gives the engine after each number of steps. Before the last the call is busy; at the last
it is in DONE, where the invariant gives ERRCODE and OFF and the running hash gives H and PLEN. -/
theorem callComputesSha256 : Obligations.CallComputesSha256 := by
  intro m s h hm hl hf hb ha
  refine ⟨fun k hk => ?_, ?_⟩
  · obtain ⟨e, hrun, hcall, rfl⟩ := run_call h hm hl hf hb ha (Nat.le_of_lt hk)
    exact ⟨_, hrun, hcall.busy hk, hcall.noFault⟩
  · obtain ⟨e, hrun, hcall, hcount⟩ := run_call h hm hl hf hb ha (Nat.le_refl _)
    have hdone := hcall.done hcount
    have herr : e.errcode = .noError := hcall.inv.errcode_eq (by simp [hdone])
    have hlen : e.len = s.eng.len := BitVec.eq_of_toNat_eq (hcall.loaded.len_eq.trans hl.len_eq.symm)
    have hhash := hcall.hashing
    simp only [Engine.Hashing, hdone] at hhash
    obtain ⟨hfold, hplen⟩ := hhash
    exact ⟨_, hrun, hdone, herr, hcall.noFault, hlen, hplen, (hcall.inv.done_off hdone).2, hfold,
      congrArg digestBytes hfold⟩

/-! ### HINIT and HACC -/

/-- Settles O38: HINIT writes IV into H (`execHinit_eq`), whose eight words are the listed ones by evaluation. -/
theorem hinitLoadsTheInitialHash : Obligations.HinitLoadsTheInitialHash :=
  fun s => execHinit_eq s

/-- Settles O39: below 2^64 OFF advances without wrapping, and HACC writes each lane of H with its sum
(`execHacc_of_lt`). -/
theorem haccAddsLanesAndAdvances : Obligations.HaccAddsLanesAndAdvances := by
  intro s hoff
  have hsucc : (s.eng.off.value + 64).toNat = s.eng.off.value.toNat + 64 := by bv_omega
  refine ⟨putAll (addLanes (values s.eng.h) (values s.eng.r)), s.eng.off.value + 64, fun i => ?_, hsucc, ?_⟩
  · simp only [Fin.getElem_fin, putAll_getElem, addLanes_getElem, values_getElem, add32_toNat, and_self]
  · rw [hsucc]
    exact execHacc_of_lt hoff

/-! ### The hexadecimal digest -/

/-- The digits are the alphabet in order (R181). -/
theorem hexDigit_alphabet {n : Nat} (h : n < 16) : "0123456789abcdef".toList[n]? = some (hexDigit n) := by
  revert n
  decide

/-- A byte is rendered as two digits before those of the bytes after it (R181). -/
theorem hex64_cons (b : Byte) (d : List Byte) :
    hex64 (b :: d) = hexDigit (b.toNat / 16) :: hexDigit (b.toNat % 16) :: hex64 d := rfl

/-- Two digits a byte (R181). -/
theorem hex64_length (d : List Byte) : (hex64 d).length = 2 * d.length := by
  induction d with
  | nil => rfl
  | cons b d ih => rw [hex64_cons, List.length_cons, List.length_cons, ih, List.length_cons, Nat.mul_succ]

/-- Byte `i` stands at digits `2i` and `2i + 1`, high nibble first (R181). -/
theorem hex64_getElem? {d : List Byte} {i : Nat} {b : Byte} (h : d[i]? = some b) :
    (hex64 d)[2 * i]? = some (hexDigit (b.toNat / 16)) ∧
      (hex64 d)[2 * i + 1]? = some (hexDigit (b.toNat % 16)) := by
  induction d generalizing i with
  | nil => cases h
  | cons b' d ih =>
    rw [hex64_cons]
    cases i with
    | zero => cases h; exact ⟨rfl, rfl⟩
    | succ i => exact ih h

/-- Settles O41: the alphabet digit by digit, the length and the digits of each byte along the list of bytes. -/
theorem hexRendersHighNibbleFirst : Obligations.HexRendersHighNibbleFirst :=
  ⟨fun _ => hexDigit_alphabet, fun d => ⟨hex64_length d, fun _ _ => hex64_getElem?⟩⟩

end Sys2Proof.Machine

/-! The sequencer: when it has a step (44_sequencer.md R190, R192), where each step leads (R191), and that no step stops
under the invariant. -/

namespace Sys2Proof.Machine

/-- Settles O9: in a rest phase BUSY is 0, so the sequencer's turn, by default or given, is disabled. -/
theorem restPhasesHaveNoStep : Obligations.RestPhasesHaveNoStep := by
  intro s hrest
  have hidle : s.eng.busy = false := (busy_eq_false_iff s.eng).mpr hrest
  exact ⟨fun ha => (step_of_nil ha).trans (seqTurn_of_disabled (.inl hidle)),
    fun rest ha => (step_of_cons ha).trans (seqTurn_of_disabled (s := { s with agenda := rest }) (.inl hidle))⟩

/-- Settles O48: a command word and the reset event always have a next state; the sequencer's turn has one under the
invariant, which does not depend on the agenda. -/
theorem noStepStopsUnderTheInvariant : Obligations.NoStepStopsUnderTheInvariant := by
  intro s h
  cases ha : s.agenda with
  | nil =>
    obtain ⟨e, he, -⟩ := seqTurn_outcome h
    exact ⟨_, (step_of_nil ha).trans he⟩
  | cons turn rest =>
    rw [step_of_cons ha]
    cases turn with
    | command w =>
      obtain ⟨t, -, ht, -⟩ := commandTurn_outcome w { s with agenda := rest }
      exact ⟨t, ht⟩
    | reset => exact ⟨_, rfl⟩
    | seq =>
      obtain ⟨e, he, -⟩ := seqTurn_outcome (s := { s with agenda := rest }) h
      exact ⟨_, he⟩

/-! ### The sequencer moves exactly when it is enabled (R192) -/

/-- Every pass of a counted loop moves: the last one PHASE, any other T (R191). -/
theorem loop_pass_moves {p following : Phase} {t last first : BitVec 6} (h : following ≠ p) :
    (if t = last then following else p) ≠ p ∨ (if t = last then first else t + 1) ≠ t := by
  by_cases hlast : t = last
  · exact .inl (by simpa [hlast] using h)
  · exact .inr (by rw [if_neg hlast]; bv_omega)

/-- A micro-operation of an enabled sequencer changes PHASE, T or FAULT. -/
theorem MicroEffect.moves {c : Config} {e e' : Engine} (hm : MicroEffect c e e') (hb : e.busy = true)
    (hf : e.fault = .noFault) : e'.phase ≠ e.phase ∨ e'.t ≠ e.t ∨ e'.fault ≠ e.fault := by
  cases hm with
  | same hdis => simp [hb, hf] at hdis
  | missing j f _ _ hne => exact .inr (.inr (by rw [hf]; exact hne))
  | word _ _ hp => exact (loop_pass_moves (by simp [hp])).imp_right .inl
  | expand _ _ _ hp => exact (loop_pass_moves (by simp [hp])).imp_right .inl
  | round _ hp => exact (loop_pass_moves (by simp [hp])).imp_right .inl
  | hacc _ hp => exact .inl (by split <;> simp [hp])
  | plan _ hp | tooLarge _ hp | hinit _ hp | padblk _ hp | wload _ _ hp | rinit _ hp => exact .inl (by simp [hp])

/-- Settles O10: an enabled sequencer moves (`MicroEffect.moves`), and a disabled one changes nothing. -/
theorem sequencerStepsExactlyWhenEnabled : Obligations.SequencerStepsExactlyWhenEnabled := by
  intro s h ha
  have henabled : s.eng.seqEnabled = true ↔
      1 ≤ s.eng.phase.code.toNat ∧ s.eng.phase.code.toNat ≤ 9 ∧ s.eng.fault = .noFault := by
    rw [seqEnabled_iff, Engine.busy, decide_eq_true_iff, and_assoc]
  rw [← henabled]
  obtain ⟨e, he, hm⟩ := seqTurn_outcome h
  refine ⟨_, (step_of_nil ha).trans he, fun hmoved => ?_, fun hen hsame => ?_⟩
  · by_contra hdis
    rw [seqTurn, if_neg hdis] at he
    exact hmoved (Host.Outcome.next.inj he).symm
  · obtain ⟨hb, hf⟩ := (seqEnabled_iff s.eng).mp hen
    have heng : e = s.eng := congrArg State.eng hsame
    simpa [heng] using hm.moves hb hf

/-! ### The transition table (R191) -/

/-- Outside the counted loops T is 0 (R193 e). -/
theorem Engine.Inv.t_eq_zero {c : Config} {e : Engine} (h : e.Inv c)
    (hp : e.phase ≠ .wload ∧ e.phase ≠ .wexp ∧ e.phase ≠ .round) : e.t = 0 := by
  have ht := h.t_range
  cases hphase : e.phase <;> simp_all [tInRange]

/-- A T below the last one is not the last: the two rows of a counted loop exclude each other. -/
theorem t_ne_of_toNat_lt {t last : BitVec 6} (h : t.toNat < last.toNat) : t ≠ last := by
  rintro rfl
  exact Nat.lt_irrefl _ h

/-- Settles O44: each effect of the sequencer's turn is at one row of the table, or at two that its own test tells
apart. -/
theorem controlTransferTable : Obligations.ControlTransferTable := by
  intro s t h ha hf hs
  obtain ⟨e, he, hm⟩ := seqTurn_outcome h
  rw [step_of_nil ha, he] at hs
  cases hs
  have ht := h.t_eq_zero
  have h15 := t_ne_of_toNat_lt (t := s.eng.t) (last := 15)
  have h63 := t_ne_of_toNat_lt (t := s.eng.t) (last := 63)
  cases hm with
  | same hdis =>
    have hrest := (busy_eq_false_iff s.eng).mp (hdis.resolve_right (not_not_intro hf))
    rcases hrest with hp | hp | hp <;> simp [hp]
  | plan _ hp hl => simpa [hp, ht] using hl
  | tooLarge _ hp hl => simpa [hp, ht] using hl
  | hinit _ hp => simp [hp, ht]
  | padblk _ hp => simp [hp, ht]
  | wload v _ hp => simp [hp, hf]
  | missing j f _ hp hne => simp [hp, hne]
  | word _ _ hp => simpa +contextual [hp] using h15
  | expand _ _ _ hp => simpa +contextual [hp] using h63
  | rinit _ hp => simp [hp]
  | round _ hp => simpa +contextual [hp] using h63
  | hacc _ hp => simp +contextual [hp, ht]

end Sys2Proof.Machine

/-! The host commands one by one (45_host_commands.md R210 to R215), what a poll tells the host (R217), polling during a
call (44_sequencer.md R202), and PLEN in DONE (R193 b). -/

namespace Sys2Proof.Machine

/-! ### WRMSG, WRLEN and START: the tests they share -/

/-- WRMSG, WRLEN and START during a call raise BusyAccess (R211 to R213). -/
theorem unlessHalted_of_busy {s body : State} (hf : s.eng.fault = .noFault) (hb : s.eng.busy = true) :
    unlessHalted s (if s.eng.busy then commandFault .busyAccess s else body) = .next { s with
      eng := { s.eng with fault := .busyAccess }, replies := s.replies ++ [.nak] } := by
  rw [unlessHalted_of_noFault _ hf, if_pos hb, commandFault_of_noFault _ hf]

/-- Outside a call they go on to their own rule. -/
theorem unlessHalted_of_idle {s body : State} (hf : s.eng.fault = .noFault) (hb : s.eng.busy = false) :
    unlessHalted s (if s.eng.busy then commandFault .busyAccess s else body) = .next body := by
  rw [unlessHalted_of_noFault _ hf, if_neg (by simp [hb])]

/-- Settles O14: outside a call `hostWrite_eq` tells the two cases of the address apart, and the byte written is read
back by `Memory.read_write_same` and `Memory.read_write_other`. -/
theorem wrmsgWritesOneByte : Obligations.WrmsgWritesOneByte := by
  intro s addr data hf
  refine ⟨fun hb => unlessHalted_of_busy hf hb, fun hb hout => ?_, fun hb hin => ?_⟩
  · rw [exec, execWrmsg, unlessHalted_of_idle hf hb, hostWrite_eq, if_pos hout]
    exact congrArg Host.Outcome.next (commandFault_of_noFault .msgRange hf)
  · refine ⟨Memory.write s.eng.msg addr.toNat data, ?_, Memory.read_write_same _ _ _,
      fun a ha => Memory.read_write_other _ _ ha⟩
    rw [exec, execWrmsg, unlessHalted_of_idle hf hb, hostWrite_eq, if_neg (Nat.not_le.mpr hin)]
    rfl

/-- Settles O15: the BUSY test of `unlessHalted_of_busy` and `unlessHalted_of_idle`. -/
theorem wrlenSetsTheLength : Obligations.WrlenSetsTheLength := fun _ _ hf =>
  ⟨fun hb => unlessHalted_of_busy hf hb, fun hb => unlessHalted_of_idle hf hb⟩

/-- Settles O16: the BUSY test of `unlessHalted_of_busy` and `unlessHalted_of_idle`. -/
theorem startBeginsACall : Obligations.StartBeginsACall := fun _ hf =>
  ⟨fun hb => unlessHalted_of_busy hf hb, fun hb => unlessHalted_of_idle hf hb⟩

/-! ### RDSTAT, RDDIG and the halted engine -/

/-- Settles O17: RDSTAT is the one command that runs before any test (R210, R214). -/
theorem rdstatReturnsStatus : Obligations.RdstatReturnsStatus := fun _ => rfl

/-- RDDIG in DONE (R215). -/
theorem execRddig_of_done {s : State} {idx : DWord} (hf : s.eng.fault = .noFault) (hd : s.eng.phase = .done)
    (hidx : idx.toNat < 32) :
    execRddig idx s = .next (s.reply (.data8 (digestByte (values s.eng.h) ⟨idx.toNat, hidx⟩))) := by
  rw [execRddig, unlessHalted_of_noFault _ hf, dif_pos hidx, if_pos hd]

/-- Settles O18: the index test comes before the phase test (R239); in DONE the byte is read as a number by
`digestByte_toNat`. -/
theorem rddigReturnsADigestByte : Obligations.RddigReturnsADigestByte := by
  intro s hf
  refine ⟨fun hd k j => ?_, fun hd idx hidx => ?_, fun idx hidx => ?_⟩
  · have hidx : (BitVec.ofNat 64 (4 * k.val + j.val)).toNat = 4 * k.val + j.val := by
      rw [BitVec.toNat_ofNat, Nat.mod_eq_of_lt (by omega)]
    have hword : (4 * k.val + j.val) / 4 = k.val := by omega
    have hbyte : (4 * k.val + j.val) % 4 = j.val := by omega
    refine ⟨_, execRddig_of_done hf hd (by omega), ?_⟩
    simp only [digestByte_toNat, values_getElem, hidx, hword, hbyte, Fin.getElem_fin]
  · rw [exec, execRddig, unlessHalted_of_noFault _ hf, dif_pos (Nat.lt_succ_of_le hidx), if_neg hd,
      commandFault_of_noFault _ hf]
  · rw [exec, execRddig, unlessHalted_of_noFault _ hf, dif_neg (by omega), commandFault_of_noFault _ hf]

/-- Settles O19: all four commands pass the halted test first. -/
theorem haltedCommandsAnswerNak : Obligations.HaltedCommandsAnswerNak := by
  intro s i hf hi
  rcases hi with ⟨a, d, rfl⟩ | ⟨v, rfl⟩ | rfl | ⟨x, rfl⟩
  all_goals exact unlessHalted_of_faulted _ hf

/-! ### What a poll tells the host -/

/-- A poll reads the flags FAULTED, BUSY, ERR and DONE, in this order (R217). -/
theorem readPoll_status (e : Engine) :
    readPoll e.status = if e.faulted then .void else if e.busy then .running else if e.err then .inputTooLarge
      else if e.done then .digest else .idle := by
  obtain ⟨hbusy, hdone, herr, hfaulted⟩ := e.status_flags
  rw [readPoll, hfaulted, hbusy, herr, hdone]

/-- A poll of a halted engine tells that the run is void. -/
theorem readPoll_of_faulted {e : Engine} (hf : e.fault ≠ .noFault) : readPoll e.status = .void := by
  rw [readPoll_status, if_pos ((faulted_eq_true_iff e).mpr hf)]

/-- A poll of an engine that is not halted tells where PHASE is. -/
theorem readPoll_of_noFault {e : Engine} (hf : e.fault = .noFault) :
    (e.busy = true ∧ readPoll e.status = .running) ∨ (e.phase = .error ∧ readPoll e.status = .inputTooLarge) ∨
      (e.phase = .done ∧ readPoll e.status = .digest) ∨ (e.phase = .idle ∧ readPoll e.status = .idle) := by
  have hnot : ¬ e.faulted = true := fun h => (faulted_eq_true_iff e).mp h hf
  rw [readPoll_status, if_neg hnot]
  by_cases hb : e.busy = true
  · exact .inl ⟨hb, if_pos hb⟩
  · rw [if_neg hb]
    rcases (busy_eq_false_iff e).mp (by simpa using hb) with hp | hp | hp
    · exact .inr (.inr (.inr ⟨hp, by simp [Engine.err, Engine.done, hp]⟩))
    · exact .inr (.inr (.inl ⟨hp, by simp [Engine.err, Engine.done, hp]⟩))
    · exact .inr (.inl ⟨hp, by simp [Engine.err, hp]⟩)

/-- Settles O23: a halted engine is polled as void, and any other by one of the four cases of `readPoll_of_noFault`. -/
theorem pollTellsTheOutcome : Obligations.PollTellsTheOutcome := by
  intro e
  by_cases hf : e.fault = .noFault
  · rcases readPoll_of_noFault hf with ⟨hb, hpoll⟩ | ⟨hp, hpoll⟩ | ⟨hp, hpoll⟩ | ⟨hp, hpoll⟩
    · have hrest := (busy_eq_true_iff e).mp hb
      simp [Engine.callEnded, hpoll, hf, hb, hrest]
    all_goals simp [Engine.callEnded, hpoll, hf, hp, busy_eq_true_iff]
  · simp [Engine.callEnded, readPoll_of_faulted hf, hf]

/-! ### Polling during a call (44_sequencer.md R202) -/

/-- A list of sequencer turns and RDSTATs takes the engine where as many sequencer turns take it that stand alone. -/
theorem Engine.Inv.plays_polled {c : Config} {turns : List Turn} {e : Engine} (h : e.Inv c)
    (hturns : ∀ turn ∈ turns, turn = .seq ∨ turn = rdstatTurn) :
    ∃ e' rs, Plays c turns e e' rs ∧
      ∀ r, Sys2Proof.core.run (turns.count .seq) ⟨c, e, [], r⟩ = .next ⟨c, e', [], r⟩ := by
  induction turns generalizing e with
  | nil => exact ⟨e, [], .nil, fun _ => rfl⟩
  | cons turn turns ih =>
    obtain ⟨hturn, hrest⟩ := List.forall_mem_cons.mp hturns
    rcases hturn with rfl | rfl
    · obtain ⟨u, hseq, hmicro⟩ := seqTurn_outcome (s := ⟨c, e, [], []⟩) h
      obtain ⟨e', rs, hplay, hrun⟩ := ih (hmicro.inv h) hrest
      refine ⟨e', _, (Plays.of_seqTurn hseq).cons hplay, fun r => ?_⟩
      have hstep : step ⟨c, e, [], r⟩ = .next ⟨c, u, [], r⟩ := (step_of_nil rfl).trans (seqTurn_frame hseq [] r)
      rw [List.count_cons_self, run_succ_of_next hstep, hrun r]
    · obtain ⟨e', rs, hplay, hrun⟩ := ih h hrest
      refine ⟨e', _, (plays_rdstat c e).cons hplay, ?_⟩
      rw [List.count_cons_of_ne (by decide)]
      exact hrun

/-- Settles O55 by `Engine.Inv.plays_polled`. -/
theorem pollingDoesNotDisturbACall : Obligations.PollingDoesNotDisturbACall := by
  intro turns s h hturns
  obtain ⟨e', rs, hplay, hrun⟩ := Engine.Inv.plays_polled h hturns
  have hplay := hplay [] s.replies
  rw [List.append_nil] at hplay
  exact ⟨_, _, hplay, hrun s.replies, rfl⟩

/-! ### PLEN in DONE (44_sequencer.md R193 b) -/

/-- Under the invariant R193 (b) is open in DONE alone, and there for PLEN alone. -/
theorem Engine.Inv.planned_of_done {c : Config} {e : Engine} (h : e.Inv c)
    (hdone : e.phase = .done → e.plen.value.toNat = padLen e.len.toNat) : e.Planned := by
  by_cases hp : e.phase = .done
  · exact fun hin => ⟨hdone hp, (h.off_aligned hin).2⟩
  · exact h.planned hp

/-- R193 (b) in DONE, as it stands for PLEN. -/
theorem Engine.Planned.plen_eq {e : Engine} (h : e.Planned) (hp : e.phase = .done) :
    e.plen.value.toNat = padLen e.len.toNat := (h (by simp [hp])).1

/-- The sequencer comes to DONE from a call, which has PLEN planned, or rests there (R191). -/
theorem MicroEffect.planned {c : Config} {e e' : Engine} (h : e.Inv c) (hp : e.Planned) (hm : MicroEffect c e e') :
    e'.Planned := by
  refine (hm.inv h).planned_of_done fun hdone => ?_
  cases hm with
  | same _ => exact hp.plen_eq hdone
  | hacc _ hphase => exact (h.plen_planned (by simp [hphase])).2
  | missing _ _ _ hphase => cases hphase.symm.trans hdone
  | word _ _ hphase | expand _ _ _ hphase | round _ hphase =>
    split at hdone
    · cases hdone
    · cases hphase.symm.trans hdone
  | _ => cases hdone

/-- No command leads to DONE or writes PLEN: one that ends in DONE began there (R210). -/
theorem CommandEffect.plen_of_done {c : Config} {e e' : Engine} (hm : CommandEffect c e e')
    (hdone : e'.phase = .done) : e.phase = .done ∧ e'.plen = e.plen := by
  cases hm with
  | start => cases hdone
  | _ => exact ⟨hdone, rfl⟩

/-- No instruction but WRLEN writes LEN (R20, R27). -/
theorem MayWrite.len_eq {e e' : Engine} {i : Instr} (hw : MayWrite e i e') (hi : ∀ v, i ≠ .wrlen v) :
    e'.len = e.len := by
  cases hw with
  | wrlen v => exact absurd rfl (hi v)
  | _ => rfl

/-- No command but an accepted WRLEN changes LEN: an illegal word raises a fault or is answered Nak (R27, R210). -/
theorem commandTurn_len {w : CommandWord} {s t : State} (h : commandTurn w s = .next t)
    (hw : ∀ v, decodeCommand w = .ok (.wrlen v) → s.eng.fault ≠ .noFault) : t.eng.len = s.eng.len := by
  cases hd : decodeCommand w with
  | error x =>
    rw [commandTurn, hd] at h
    by_cases hf : s.eng.fault = .noFault
    · cases (unlessHalted_of_noFault _ hf).symm.trans h
      simp
    · cases (unlessHalted_of_faulted _ hf).symm.trans h
      rfl
  | ok i =>
    rw [commandTurn_runs hd] at h
    by_cases hi : ∃ v, i = .wrlen v
    · obtain ⟨v, rfl⟩ := hi
      cases (unlessHalted_of_faulted _ (hw v hd)).symm.trans h
      rfl
    · obtain ⟨-, -, hwrites⟩ := exec_writesOnly i s t h
      exact hwrites.len_eq fun v hv => hi ⟨v, hv⟩

/-- Every step but a WRLEN accepted in DONE keeps R193 (b): a command that ends in DONE began there and leaves LEN and
PLEN, the reset event leads to IDLE, and the sequencer's turn keeps it. -/
theorem step_planned {s t : State} (h : s.Inv) (hs : step s = .next t) (hp : s.eng.Planned)
    (hw : ∀ w rest v, s.agenda = .command w :: rest → decodeCommand w = .ok (.wrlen v) → s.eng.phase = .done →
      s.eng.fault ≠ .noFault) : t.eng.Planned := by
  refine Engine.Inv.planned_of_done (everyStepKeepsTheInvariant s t h hs) fun hdone => ?_
  obtain ⟨-, -, hcase⟩ := step_cases h hs
  rcases hcase with ⟨w, rest, ha, hcommand, -⟩ | ⟨rest, ha, hreset, -⟩ | ⟨-, hmicro, -⟩
  · obtain ⟨hbegan, hplen⟩ := hcommand.plen_of_done hdone
    have hturn : commandTurn w { s with agenda := rest } = .next t := (step_of_cons ha).symm.trans hs
    rw [hplen, commandTurn_len hturn fun v hd => hw w rest v ha hd hbegan]
    exact hp.plen_eq hbegan
  · rw [hreset] at hdone
    cases hdone
  · exact (hmicro.planned h hp).plen_eq hdone

/-- Settles O57: during a call R193 (b) follows from the invariant, every step but a WRLEN accepted in DONE keeps it
(`step_planned`), and such a WRLEN sets LEN alone. -/
theorem paddedLengthStandsUntilWrlen : Obligations.PaddedLengthStandsUntilWrlen := by
  intro s t h hs
  refine ⟨fun hb => ?_, step_planned h hs, fun w rest v ha hd hp hf => ?_⟩
  · have hne : s.eng.phase ≠ .done := ((busy_eq_true_iff s.eng).mp hb).2.1
    exact step_planned h hs (Engine.Inv.planned h hne) fun _ _ _ _ _ hp => absurd hp hne
  · have hb : s.eng.busy = false := (busy_eq_false_iff s.eng).mpr (.inr (.inl hp))
    rw [step_of_cons ha] at hs
    cases ((commandTurn_runs hd _).trans ((wrlenSetsTheLength { s with agenda := rest } v hf).2 hb)).symm.trans hs
    rfl

end Sys2Proof.Machine

/-! The five faults and the one error (60_exceptions.md): a word that matches no row (R233), the halted engine (R238), a
length that CHKLEN rejects (R230, R231), and a message byte that cannot be read (R236, R237). -/

namespace Sys2Proof.Machine

/-! ### Illegal words and the halted engine -/

/-- A word that selects no row of the opcode map decodes to no instruction (R101, R108). -/
theorem decodeCommand_error_of_no_row {w : CommandWord} (hrow : ∀ r ∈ commandRows, w &&& r.mask ≠ r.pattern) :
    ∃ x, decodeCommand w = .error x := by
  cases hd : decodeCommand w with
  | error x => exact ⟨x, rfl⟩
  | ok i =>
    obtain ⟨r, hr, hsel, -⟩ := (commandWordSelectsItsRow w).1 i hd
    exact absurd (beq_iff_eq.mp hsel) (hrow r hr)

/-- A word that decodes to no instruction is an illegal word (R108, R210). -/
theorem commandTurn_of_error {w : CommandWord} {x : DecodeReject} (hd : decodeCommand w = .error x) (s : State) :
    commandTurn w s = illegalWord s := by
  rw [commandTurn, hd]

/-- An illegal word on an engine that is not halted raises IllegalCommand and does nothing else (R233). -/
theorem illegalWord_of_noFault {s : State} (hf : s.eng.fault = .noFault) :
    illegalWord s = .next { s with
      eng := { s.eng with fault := .illegalCommand }, replies := s.replies ++ [.nak] } := by
  rw [illegalWord, unlessHalted_of_noFault _ hf, commandFault_of_noFault _ hf]

/-- Settles O8: the word decodes to nothing, so its turn is `illegalWord`, which passes the halted test first. -/
theorem illegalWordRaisesIllegalCommand : Obligations.IllegalWordRaisesIllegalCommand := by
  intro s w rest ha hrow
  obtain ⟨x, hd⟩ := decodeCommand_error_of_no_row hrow
  have hturn : step s = illegalWord { s with agenda := rest } := (step_of_cons ha).trans (commandTurn_of_error hd _)
  exact ⟨fun hf => hturn.trans (illegalWord_of_noFault hf), fun hf => hturn.trans (unlessHalted_of_faulted _ hf)⟩

/-- On a halted engine every word but RDSTAT, legal or not, is answered Nak and changes nothing (R210 step 3, R238). -/
theorem commandTurn_of_faulted {w : CommandWord} {s : State} (hf : s.eng.fault ≠ .noFault)
    (hne : decodeCommand w ≠ .ok .rdstat) : commandTurn w s = .next (s.reply .nak) := by
  cases hd : decodeCommand w with
  | error x => exact (commandTurn_of_error hd s).trans (unlessHalted_of_faulted _ hf)
  | ok i =>
    refine (commandTurn_runs hd s).trans (haltedCommandsAnswerNak s i hf ?_)
    have hi : i ≠ .rdstat := fun h => hne (hd.trans (congrArg Except.ok h))
    simpa [hi] using decodeCommand_ok_cases hd

/-- Settles O11: on a halted engine the sequencer is disabled, and a word other than RDSTAT goes by
`commandTurn_of_faulted`. -/
theorem faultedEngineIsHalted : Obligations.FaultedEngineIsHalted := by
  intro s hf
  refine ⟨fun ha => ?_, fun rest ha => ?_, fun w rest ha hne => ?_, fun w rest ha hd => ?_⟩
  · exact (step_of_nil ha).trans (seqTurn_of_disabled (.inr hf))
  · exact (step_of_cons ha).trans (seqTurn_of_disabled (s := { s with agenda := rest }) (.inr hf))
  · exact (step_of_cons ha).trans (commandTurn_of_faulted (s := { s with agenda := rest }) hf hne)
  · exact (step_of_cons ha).trans (commandTurn_runs hd _)

/-! ### A length that CHKLEN rejects -/

/-- CHKLEN's turn on a length it rejects (R121, R230). -/
theorem seqTurn_of_tooLong {s : State} (hf : s.eng.fault = .noFault) (hp : s.eng.phase = .chklen)
    (hlen : 2 ^ 61 ≤ s.eng.len.toNat) :
    seqTurn s = .next { s with eng := { s.eng with errcode := .inputTooLarge, phase := .error } } := by
  rw [seqTurn_of_noFault hf, hp]
  exact execChklen_of_ge hlen

/-- Settles O51: START enters CHKLEN, whose one step rejects the length. -/
theorem tooLongCallEndsInError : Obligations.TooLongCallEndsInError := by
  intro s hlen hf hb ha
  refine (run_succ_of_next (step_startTurn hf hb ha) 1).trans (run_one ((step_of_nil rfl).trans ?_))
  exact seqTurn_of_tooLong hf rfl hlen

/-! ### A message byte that cannot be read -/

/-- A pass of a counted loop that is not the last advances T by one (R144, R145, R162). -/
theorem toNat_of_eq_succ {t u : BitVec 6} (h : t ≠ 63) (hu : u = t + 1) : u.toNat = t.toNat + 1 :=
  hu ▸ t_succ_toNat h

/-- A step of the sequencer that raises no fault counts one, whether or not the whole message is loaded: the rows of the
transition table (R191), read as step counts (R194). -/
theorem step_callStep {s t : State} (h : s.Inv) (ha : s.agenda = []) (hb : s.eng.busy = true)
    (hf : s.eng.fault = .noFault) (hl : s.eng.len.toNat < 2 ^ 61) (hs : step s = .next t)
    (hf' : t.eng.fault = .noFault) : t.eng.callStep = s.eng.callStep + 1 := by
  obtain ⟨chklen, -, plan, hinit, padblk, -, wload, wloadLast, wexp, wexpLast, rinit, round, roundLast, hacc,
    haccLast⟩ := controlTransferTable s t h ha hf hs
  unfold Engine.callStep
  cases hp : s.eng.phase with
  | idle | done | error => simp [Engine.busy, hp] at hb
  | chklen =>
    obtain ⟨hp', -, -⟩ := chklen hp hl
    simp [hp']
  | plan =>
    obtain ⟨hp', -, -⟩ := plan hp
    simp [hp']
  | hinit =>
    obtain ⟨hp', -, hoff⟩ := hinit hp
    simp [hp', Engine.blockIndex, hoff, h.off_start hp]
  | padblk =>
    obtain ⟨hp', ht, hoff⟩ := padblk hp hf'
    simp [hp', ht, Engine.blockIndex_congr hoff]
  | wload =>
    have hrange : s.eng.t.toNat ≤ 15 := by simpa [tInRange, hp] using h.t_range
    rcases Nat.lt_or_eq_of_le hrange with hlow | hlast
    · obtain ⟨hp', ht, hoff⟩ := wload hp hlow
      have hsucc := toNat_of_eq_succ (by bv_omega) ht
      simp only [hp', hsucc, Engine.blockIndex_congr hoff]; omega
    · obtain ⟨hp', ht, hoff⟩ := wloadLast hp (BitVec.eq_of_toNat_eq hlast)
      simp [hp', ht, hlast, Engine.blockIndex_congr hoff]
  | wexp =>
    by_cases hlast : s.eng.t = 63
    · obtain ⟨hp', -, hoff⟩ := wexpLast hp hlast
      simp [hp', hlast, Engine.blockIndex_congr hoff]
    · obtain ⟨hp', ht, hoff⟩ := wexp hp (by bv_omega)
      have hsucc := toNat_of_eq_succ hlast ht
      simp only [hp', hsucc, Engine.blockIndex_congr hoff]; omega
  | rinit =>
    obtain ⟨hp', ht, hoff⟩ := rinit hp
    simp [hp', ht, Engine.blockIndex_congr hoff]
  | round =>
    by_cases hlast : s.eng.t = 63
    · obtain ⟨hp', -, hoff⟩ := roundLast hp hlast
      simp [hp', hlast, Engine.blockIndex_congr hoff]
    · obtain ⟨hp', ht, hoff⟩ := round hp (by bv_omega)
      have hsucc := toNat_of_eq_succ hlast ht
      simp only [hp', hsucc, Engine.blockIndex_congr hoff]; omega
  | hacc =>
    have hblock := h.block (by simp [hp])
    rcases Nat.lt_or_eq_of_le hblock.off_room with hmore | hlast
    · obtain ⟨hp', -, hoff⟩ := hacc hp hmore
      simp only [hp', hblock.blockIndex_succ hoff]; omega
    · obtain ⟨hp', -, hoff⟩ := haccLast hp hlast
      simp only [hp', hblock.blockIndex_succ hoff]; omega

/-- `p` is the lowest byte of the message that cannot be read: it is out of range or unwritten, and every byte before it
is in range and written (R62, R239). -/
structure Engine.LowestMissing (c : Config) (p : Nat) (e : Engine) : Prop where
  lt_len : p < e.len.toNat
  missing : c.msgCapacity ≤ p ∨ Memory.read e.msg p = none
  readable : ∀ q, q < p → q < c.msgCapacity ∧ Memory.read e.msg q ≠ none

/-- Which byte is missing depends on LEN and MSG alone. -/
theorem Engine.LowestMissing.congr {c : Config} {p : Nat} {e e' : Engine} (h : e.LowestMissing c p)
    (hlen : e'.len = e.len) (hmsg : e'.msg = e.msg) : e'.LowestMissing c p :=
  ⟨hlen ▸ h.lt_len, hmsg ▸ h.missing, hmsg ▸ h.readable⟩

/-- The engine is in a call of a checked length, not halted, and `p` is the lowest missing byte of its message. -/
structure Engine.CallMissing (c : Config) (p : Nat) (e : Engine) : Prop where
  inv : e.Inv c
  lowest : e.LowestMissing c p
  len_checked : e.len.toNat < 2 ^ 61
  noFault : e.fault = .noFault
  busy : e.busy = true

/-- Nothing faults before the block of the missing byte: PADBLK can read every block before it (R125). -/
theorem MicroEffect.noFault_before {c : Config} {p : Nat} {e e' : Engine} (h : e.CallMissing c p)
    (hcount : e.callStep < 3 + 131 * (p / 64)) (hm : MicroEffect c e e') : e'.fault = .noFault := by
  cases hm with
  | missing j f _ hphase _ hj _ hread _ =>
    have hoff := (h.inv.block (by simp [hphase])).off_eq
    simp only [Engine.callStep, hphase] at hcount
    obtain ⟨hin, hwritten⟩ := h.lowest.readable (e.off.value.toNat + j) (by omega)
    obtain ⟨b, hb⟩ := Option.ne_none_iff_exists'.mp hwritten
    cases hread.symm.trans (engineRead_ok_iff.mpr ⟨hin, hb⟩)
  | _ => exact h.noFault

/-- A call that ends in DONE has passed the block of every message byte, since PLEN is beyond LEN (R123, R193 d). -/
theorem Engine.Planned.lt_callStep_of_done {c : Config} {p : Nat} {e : Engine} (hplan : e.Planned) (h : e.Inv c)
    (hp : p < e.len.toNat) (hdone : e.phase = .done) : 3 + 131 * (p / 64) < e.callStep := by
  have hbounds := padLen_bounds e.len.toNat
  simp only [Engine.callStep, hdone, Engine.blockIndex, (h.done_off hdone).2, hplan.plen_eq hdone]
  omega

/-- After its first step and up to the block of a message byte a call is busy (R194). -/
theorem Engine.Planned.busy_of_callStep {c : Config} {p : Nat} {e : Engine} (hplan : e.Planned) (h : e.Inv c)
    (hp : p < e.len.toNat) (hpos : 0 < e.callStep) (hcount : e.callStep ≤ 3 + 131 * (p / 64)) : e.busy = true := by
  by_contra hb
  rcases (busy_eq_false_iff e).mp (by simpa using hb) with hphase | hphase | hphase
  · simp [Engine.callStep, hphase] at hpos
  · have := hplan.lt_callStep_of_done h hp hphase
    omega
  · simp [Engine.callStep, hphase] at hpos

/-- One step of the call before the block of the missing byte: it goes on and counts one. -/
theorem Engine.CallMissing.seqTurn {p : Nat} {s : State} (h : s.eng.CallMissing s.config p) (ha : s.agenda = [])
    (hcount : s.eng.callStep < 3 + 131 * (p / 64)) :
    ∃ e, seqTurn s = .next { s with eng := e } ∧ e.CallMissing s.config p ∧ e.callStep = s.eng.callStep + 1 := by
  obtain ⟨e, he, hm⟩ := seqTurn_outcome (s := s) h.inv
  have hnoFault := hm.noFault_before h hcount
  have hstep : step s = .next { s with eng := e } := (step_of_nil ha).trans he
  have hnext : e.callStep = s.eng.callStep + 1 :=
    step_callStep h.inv ha h.busy h.noFault h.len_checked hstep hnoFault
  have hplan : e.Planned := (paddedLengthStandsUntilWrlen s _ h.inv hstep).1 h.busy
  obtain ⟨hlen, hmsg⟩ := hm.len_msg
  have hlowest := h.lowest.congr hlen hmsg
  have hbusy := hplan.busy_of_callStep (hm.inv h.inv) hlowest.lt_len (by omega) (by omega)
  exact ⟨e, he, ⟨hm.inv h.inv, hlowest, hlen ▸ h.len_checked, hnoFault, hbusy⟩, hnext⟩

/-- The call with no host action pending runs on, one count a step, up to the block of the missing byte. -/
theorem Engine.CallMissing.run {p n : Nat} {s : State} (h : s.eng.CallMissing s.config p) (ha : s.agenda = [])
    (hn : s.eng.callStep + n ≤ 3 + 131 * (p / 64)) :
    ∃ e, Sys2Proof.core.run n s = .next { s with eng := e } ∧ e.CallMissing s.config p ∧
      e.callStep = s.eng.callStep + n := by
  induction n generalizing s with
  | zero => exact ⟨s.eng, rfl, h, rfl⟩
  | succ n ih =>
    obtain ⟨u, hu, hcall, hcount⟩ := h.seqTurn ha (by omega)
    obtain ⟨e, hrun, hcall', hcount'⟩ := ih (s := { s with eng := u }) hcall ha (by simp only [hcount]; omega)
    refine ⟨e, (run_succ_of_next ((step_of_nil ha).trans hu) n).trans hrun, hcall', ?_⟩
    simp only [hcount] at hcount'
    omega

/-- A busy call whose count is that of the beginning of a block is in PADBLK at that block (R194). -/
theorem Engine.CallMissing.padblk_of_callStep {c : Config} {p : Nat} {e : Engine} (h : e.CallMissing c p)
    (hcount : e.callStep = 3 + 131 * (p / 64)) : e.phase = .padblk ∧ e.blockIndex = p / 64 := by
  have hrange := h.inv.t_range
  have hlt := e.t.isLt
  have hbusy := (busy_eq_true_iff e).mp h.busy
  unfold Engine.callStep at hcount
  cases hp : e.phase <;> simp [hp, tInRange] at hcount hrange hbusy ⊢ <;> omega

/-- PADBLK at the block of the missing byte halts with that byte's fault (R125, R236, R237). -/
theorem Engine.CallMissing.halts {p : Nat} {s : State} (h : s.eng.CallMissing s.config p) (ha : s.agenda = [])
    (hphase : s.eng.phase = .padblk) (hk : s.eng.blockIndex = p / 64) :
    step s = .next { s with
      eng := { s.eng with fault := if s.config.msgCapacity ≤ p then .msgRange else .msgUnwritten } } := by
  have hblock := h.inv.block (by simp [hphase])
  have hbyte : s.eng.off.value.toNat + p % 64 = p := by rw [hblock.off_eq, hk]; omega
  have hroom : s.eng.len.toNat + 9 ≤ s.eng.plen.value.toNat := by
    rw [hblock.plen_planned.2]; exact (padLen_bounds _).1
  have hexec : step s = exec .padblk s :=
    (step_of_nil ha).trans (seqTurn_runs h.busy h.noFault (by rw [hphase]; rfl))
  obtain ⟨hrange, hunwritten⟩ := padblkFaultsAtTheFirstBadByte s (p % 64) h.noFault hroom hblock.off_room
    (Nat.mod_lt p (by decide)) (by rw [hbyte]; exact h.lowest.lt_len)
    fun i hi => h.lowest.readable _ (by omega)
  rw [hbyte] at hrange hunwritten
  rw [hexec]
  split
  · next hout => exact hrange hout
  · next hin => exact hunwritten (by omega) (h.lowest.missing.resolve_left hin)

/-- START on a message whose lowest missing byte is `p` begins the call at count 0. -/
theorem Engine.CallMissing.start {c : Config} {p : Nat} {e : Engine} (h : e.Inv c) (hp : e.LowestMissing c p)
    (hl : e.len.toNat < 2 ^ 61) (hf : e.fault = .noFault) :
    ({ e with errcode := .noError, t := 0, phase := .chklen } : Engine).CallMissing c p where
  inv := h.start
  lowest := hp.congr rfl rfl
  len_checked := hl
  noFault := hf
  busy := rfl

/-- Settles O52: the call runs on to the block of the missing byte, where it is in PADBLK, whose step faults. -/
theorem missingByteHaltsTheCall : Obligations.MissingByteHaltsTheCall := by
  intro s p h hl hf hb ha hlen hmissing hreadable
  obtain ⟨e, hrun, hcall, hcount⟩ := Engine.CallMissing.run (n := 3 + 131 * (p / 64))
    (s := { s with
      eng := { s.eng with errcode := .noError, t := 0, phase := .chklen }
      agenda := [], replies := s.replies ++ [.ack] })
    (Engine.CallMissing.start h ⟨hlen, hmissing, hreadable⟩ hl hf) rfl (by simp [Engine.callStep])
  obtain ⟨hphase, hk⟩ := hcall.padblk_of_callStep (by simpa [Engine.callStep] using hcount)
  have hoff := (hcall.inv.block (by simp [hphase])).off_eq
  have hhalt := Engine.CallMissing.halts (s := { s with eng := e, agenda := [], replies := s.replies ++ [.ack] })
    hcall rfl hphase hk
  exact ⟨_, _, (run_add (run_one (step_startTurn hf hb ha)) _).trans hrun, hphase, hcall.noFault, hk ▸ hoff, hhalt,
    rfl⟩

end Sys2Proof.Machine

/-! The reset event (70_reset_and_hazards.md R260), the constant tables (43_hash_accumulator.md R176, R177), and the
positions to which the spec gives no effect (log 7). -/

namespace Sys2Proof.Machine

/-- Settles O12: the reset event leaves the engine as it is after reset, whatever it was, and touches nothing else. -/
theorem resetEventIsTotal : Obligations.ResetEventIsTotal := by
  intro s rest ha
  obtain ⟨hrh, hwblk, hplen, hoff⟩ := Engine.reset_unwritten
  exact ⟨resetEvent { s with agenda := rest }, step_of_cons ha, rfl, rfl, rfl, rfl, rfl, rfl, rfl, rfl,
    (by decide : Engine.reset.status = 0),
    hrh, hwblk, hplen, hoff, fun _ => rfl⟩

/-- Settles O46: the engine after reset meets the invariant whatever the capacity. -/
theorem resetMeetsTheInvariant : Obligations.ResetMeetsTheInvariant := Engine.reset_inv Config.full

/-- Settles O40, by evaluation of the two tables. -/
theorem constantTableChecksums : Obligations.ConstantTableChecksums := by
  unfold Obligations.ConstantTableChecksums
  decide +kernel

/-- Settles O42: each position fails the test that guards its micro-operation's effect, that of PADBLK being
`padDefined_iff`. -/
theorem positionsOutsideTheSpecStop : Obligations.PositionsOutsideTheSpecStop := fun _ =>
  ⟨fun h => dif_neg (by omega), fun h => if_neg (by omega), fun h => if_pos h,
    fun h => if_neg (by rw [padDefined_iff]; omega), fun h => if_neg (by omega)⟩

end Sys2Proof.Machine

/-! What STATUS reveals of a message (44_sequencer.md R195): the control flow of a call as a function of PHASE, T, OFF,
LEN and of which message bytes can be read, and two calls that agree on those, side by side. -/

namespace Sys2Proof.Machine

/-! ### The control flow of one engine -/

/-- FAULT after the sequencer's turn: a PADBLK that is performed takes the fault of its first bad byte, if it has one
(R125, R239); nothing else touches FAULT. -/
def Engine.nextFault (c : Config) (e : Engine) : FaultCode :=
  if e.fault = .noFault ∧ e.phase = .padblk then
    match collect 64 fun j => padByte c e (e.off.value.toNat + j) with
    | .error f => f
    | .ok _ => .noFault
  else e.fault

/-- PHASE after a turn that leaves FAULT = 0 (R191). -/
def Engine.nextPhase (e : Engine) : Phase :=
  match e.phase with
  | .chklen => if 2 ^ 61 ≤ e.len.toNat then .error else .plan
  | .plan => .hinit
  | .hinit => .padblk
  | .padblk => .wload
  | .wload => if e.t = 15 then .wexp else .wload
  | .wexp => if e.t = 63 then .rinit else .wexp
  | .rinit => .round
  | .round => if e.t = 63 then .hacc else .round
  | .hacc => if e.off.value.toNat + 64 < e.plen.value.toNat then .padblk else .done
  | .idle | .done | .error => e.phase

/-- T after a turn that leaves FAULT = 0 (R191). -/
def Engine.nextT (e : Engine) : BitVec 6 :=
  match e.phase with
  | .wload => if e.t = 15 then 16 else e.t + 1
  | .wexp | .round => if e.t = 63 then 0 else e.t + 1
  | .padblk | .rinit => 0
  | .idle | .chklen | .plan | .hinit | .hacc | .done | .error => e.t

/-- OFF after a turn that leaves FAULT = 0 (R191). -/
def Engine.nextOff (e : Engine) : DWord :=
  match e.phase with
  | .plan => 0
  | .hacc => e.off.value + 64
  | .idle | .chklen | .hinit | .padblk | .wload | .wexp | .rinit | .round | .done | .error => e.off.value

section
variable {c : Config} {e e' : Engine}

/-- `nextFault` is FAULT after the sequencer's turn. -/
theorem MicroEffect.fault_eq (hm : MicroEffect c e e') : e'.fault = e.nextFault c := by
  unfold Engine.nextFault
  cases hm with
  | same hdis =>
    refine (if_neg ?_).symm
    rintro ⟨hf, hp⟩
    have hrest := (busy_eq_false_iff e).mp (hdis.resolve_right (not_not_intro hf))
    simp [hp] at hrest
  | wload v hf hp hv => rw [if_pos ⟨hf, hp⟩, collect_ok_iff.mpr hv, hf]
  | missing j f hf hp _ hj hlt hread hlow =>
    have hfirst : padByte c e (e.off.value.toNat + j) = .error f := padByte_error_iff.mpr ⟨hlt, hread⟩
    rw [if_pos ⟨hf, hp⟩, collect_error_of_first hj hfirst hlow]
  | plan _ hp | tooLarge _ hp | hinit _ hp | padblk _ hp | word _ _ hp | expand _ _ _ hp | rinit _ hp | round _ hp
  | hacc _ hp => simp [hp]

/-- `nextPhase`, `nextT` and `nextOff` are where a turn of the sequencer leads that leaves FAULT = 0. -/
theorem MicroEffect.control_eq (hm : MicroEffect c e e') (hf' : e'.fault = .noFault) :
    e'.phase = e.nextPhase ∧ e'.t = e.nextT ∧ e'.off.value = e.nextOff := by
  unfold Engine.nextPhase Engine.nextT Engine.nextOff
  cases hm with
  | same hdis =>
    have hrest := (busy_eq_false_iff e).mp (hdis.resolve_right (not_not_intro hf'))
    rcases hrest with hp | hp | hp <;> simp [hp]
  | missing _ _ _ _ hne => exact absurd hf' hne
  | plan _ hp hl => simpa [hp] using hl
  | tooLarge _ hp hl => simpa [hp] using hl
  | hinit _ hp | padblk _ hp | wload _ _ hp | word _ _ hp | expand _ _ _ hp | rinit _ hp | round _ hp
  | hacc _ hp => simp [hp]

/-- A turn of the sequencer that ends halted changes FAULT alone, if anything (R238, R240). -/
theorem MicroEffect.eq_of_faulted (hm : MicroEffect c e e') (hf' : e'.fault ≠ .noFault) :
    e' = { e with fault := e'.fault } := by
  cases hm with
  | same | missing => rfl
  | plan hf | tooLarge hf | hinit hf | padblk hf | wload _ hf | word _ hf | expand _ _ hf | rinit hf | round hf
  | hacc hf => exact absurd hf hf'

end

/-! ### Reads that fail alike -/

/-- `collect` fails alike on reads that fail alike (60_exceptions.md R239). -/
theorem collect_error_congr {ε α : Type} {n : Nat} {f g : Nat → Except ε α} {x : ε}
    (h : ∀ i y, f i = .error y ↔ g i = .error y) (hc : collect n f = .error x) : collect n g = .error x := by
  obtain ⟨i, hi, hx, hlow⟩ := collect_error hc
  refine collect_error_of_first hi ((h i x).mp hx) fun j hj => ?_
  obtain ⟨b, hb⟩ := hlow j hj
  cases hg : g j with
  | ok b' => exact ⟨b', rfl⟩
  | error y => cases hb.symm.trans ((h j y).mpr hg)

/-- Whether the engine's read fails, and how, depends on the address and on whether it is written (R62). -/
theorem engineRead_error_iff {c : Config} {m : Memory} {a : Nat} {f : FaultCode} :
    engineRead c m a = .error f ↔
      if c.msgCapacity ≤ a then f = .msgRange else (Memory.read m a).isSome = false ∧ f = .msgUnwritten := by
  rw [engineRead_eq]
  split
  · simp [eq_comm]
  · cases Memory.read m a <;> simp [eq_comm]

/-! ### Two engines in calls that differ in the bytes alone -/

/-- The two engines agree on all that the control flow of a call depends on: PHASE, T, FAULT, LEN, which message bytes
are written, and OFF from the step on at which PLAN has set it. -/
structure Engine.SameFlow (e₁ e₂ : Engine) : Prop where
  phase : e₁.phase = e₂.phase
  t : e₁.t = e₂.t
  fault : e₁.fault = e₂.fault
  len : e₁.len = e₂.len
  written : ∀ a, a < e₁.len.toNat → (Memory.read e₁.msg a).isSome = (Memory.read e₂.msg a).isSome
  off : e₁.phase.between 3 9 → e₁.off.value = e₂.off.value

section
variable {c : Config} {e₁ e₂ e₁' e₂' : Engine}

/-- A byte of PAD fails alike in both (R124). -/
theorem Engine.SameFlow.padByte_error (h : e₁.SameFlow e₂) (p : Nat) (f : FaultCode) :
    padByte c e₁ p = .error f ↔ padByte c e₂ p = .error f := by
  rw [padByte_error_iff, padByte_error_iff, ← h.len]
  refine and_congr_right fun hp => ?_
  rw [engineRead_error_iff, engineRead_error_iff, h.written p hp]

/-- FAULT becomes the same in both, since PADBLK reads at the same OFF. -/
theorem Engine.SameFlow.nextFault_eq (h : e₁.SameFlow e₂) : e₁.nextFault c = e₂.nextFault c := by
  unfold Engine.nextFault
  rw [← h.phase, ← h.fault]
  split
  · next hcond =>
    rw [← h.off (by simp [hcond.2])]
    have herr := fun j => h.padByte_error (c := c) (e₁.off.value.toNat + j)
    cases hc₁ : collect 64 fun j => padByte c e₁ (e₁.off.value.toNat + j) with
    | error f => rw [collect_error_congr herr hc₁]
    | ok v =>
      cases hc₂ : collect 64 fun j => padByte c e₂ (e₁.off.value.toNat + j) with
      | error f => cases hc₁.symm.trans (collect_error_congr (fun j x => (herr j x).symm) hc₂)
      | ok v => rfl
  · rfl

/-- PHASE becomes the same in both: HACC compares the same OFF with the same PLEN (R193 b). -/
theorem Engine.SameFlow.nextPhase_eq (h : e₁.SameFlow e₂) (h₁ : e₁.Inv c) (h₂ : e₂.Inv c) :
    e₁.nextPhase = e₂.nextPhase := by
  unfold Engine.nextPhase
  rw [← h.phase, ← h.t, ← h.len]
  cases hp : e₁.phase with
  | hacc =>
    have hplen₁ := (h₁.plen_planned (by simp [hp])).2
    have hplen₂ := (h₂.plen_planned (by simp [← h.phase, hp])).2
    simp only [h.off (by simp [hp]), hplen₁, hplen₂, h.len]
  | _ => rfl

/-- T becomes the same in both. -/
theorem Engine.SameFlow.nextT_eq (h : e₁.SameFlow e₂) : e₁.nextT = e₂.nextT := by
  unfold Engine.nextT
  rw [← h.phase, ← h.t]

/-- OFF becomes the same in both where PLAN has been performed: PLAN sets it to 0, and later both advance it alike. -/
theorem Engine.SameFlow.nextOff_eq (h : e₁.SameFlow e₂) (hb : e₁.nextPhase.between 3 9) :
    e₁.nextOff = e₂.nextOff := by
  unfold Engine.nextPhase at hb
  unfold Engine.nextOff
  rw [← h.phase]
  cases hp : e₁.phase with
  | idle | done | error => simp [hp] at hb
  | chklen =>
    simp only [hp] at hb
    split at hb <;> simp at hb
  | plan => rfl
  | hinit | padblk | wload | wexp | rinit | round | hacc => simp [h.off (by simp [hp])]

/-- A turn of the sequencer in both keeps the agreement: both end halted by the same fault, or both go on alike. -/
theorem MicroEffect.sameFlow (hm₁ : MicroEffect c e₁ e₁') (hm₂ : MicroEffect c e₂ e₂') (h : e₁.SameFlow e₂)
    (h₁ : e₁.Inv c) (h₂ : e₂.Inv c) : e₁'.SameFlow e₂' := by
  have hfault : e₁'.fault = e₂'.fault := hm₁.fault_eq.trans (h.nextFault_eq.trans hm₂.fault_eq.symm)
  by_cases hf : e₁'.fault = .noFault
  · obtain ⟨hphase₁, ht₁, hoff₁⟩ := hm₁.control_eq hf
    obtain ⟨hphase₂, ht₂, hoff₂⟩ := hm₂.control_eq (hfault ▸ hf)
    obtain ⟨hlen₁, hmsg₁⟩ := hm₁.len_msg
    obtain ⟨hlen₂, hmsg₂⟩ := hm₂.len_msg
    exact
      { phase := by rw [hphase₁, hphase₂, h.nextPhase_eq h₁ h₂]
        t := by rw [ht₁, ht₂, h.nextT_eq]
        fault := hfault
        len := by rw [hlen₁, hlen₂, h.len]
        written := by rw [hlen₁, hmsg₁, hmsg₂]; exact h.written
        off := fun hb => by rw [hoff₁, hoff₂, h.nextOff_eq (hphase₁ ▸ hb)] }
  · rw [hm₁.eq_of_faulted hf, hm₂.eq_of_faulted (hfault ▸ hf), ← hfault]
    exact { h with fault := rfl }

/-- Engines that agree show the same STATUS: it shows PHASE, T, FAULT and ERRCODE (R103), and ERRCODE follows from
PHASE (R33). -/
theorem Engine.SameFlow.status_eq (h : e₁.SameFlow e₂) (h₁ : e₁.Inv c) (h₂ : e₂.Inv c) : e₁.status = e₂.status := by
  have herr : e₁.errcode = e₂.errcode := by
    by_cases hp : e₁.phase = .error
    · rw [h₁.errcode_iff.mpr hp, h₂.errcode_iff.mpr (h.phase ▸ hp)]
    · rw [h₁.errcode_eq hp, h₂.errcode_eq (h.phase ▸ hp)]
  simp only [Engine.status, Engine.faulted, Engine.err, Engine.done, Engine.busy, h.phase, h.t, h.fault, herr]

/-- Two engines at the first step of a call agree if they agree on LEN and on which message bytes are written: T is 0 in
both (R193 e), and OFF does not count yet. -/
theorem Engine.SameFlow.of_chklen (h₁ : e₁.Inv c) (h₂ : e₂.Inv c) (hp₁ : e₁.phase = .chklen)
    (hp₂ : e₂.phase = .chklen) (hf : e₁.fault = e₂.fault) (hlen : e₁.len = e₂.len)
    (hwritten : ∀ a, a < e₁.len.toNat → (Memory.read e₁.msg a).isSome = (Memory.read e₂.msg a).isSome) :
    e₁.SameFlow e₂ where
  phase := hp₁.trans hp₂.symm
  t := by rw [h₁.t_eq_zero (by simp [hp₁]), h₂.t_eq_zero (by simp [hp₂])]
  fault := hf
  len := hlen
  written := hwritten
  off := fun hb => by simp [hp₁] at hb

end

/-- Two runs of the sequencer in instances of one capacity keep the agreement. -/
theorem Engine.SameFlow.run {n : Nat} {s₁ s₂ : State} (h : s₁.eng.SameFlow s₂.eng) (h₁ : s₁.Inv) (h₂ : s₂.Inv)
    (ha₁ : s₁.agenda = []) (ha₂ : s₂.agenda = []) (hc : s₁.config = s₂.config) :
    ∃ e₁ e₂, Sys2Proof.core.run n s₁ = .next { s₁ with eng := e₁ } ∧
      Sys2Proof.core.run n s₂ = .next { s₂ with eng := e₂ } ∧ e₁.SameFlow e₂ := by
  induction n generalizing s₁ s₂ with
  | zero => exact ⟨s₁.eng, s₂.eng, rfl, rfl, h⟩
  | succ n ih =>
    obtain ⟨u₁, hu₁, hm₁⟩ := seqTurn_outcome h₁
    obtain ⟨u₂, hu₂, hm₂⟩ := seqTurn_outcome h₂
    have hinv₂ : Engine.Inv s₁.config s₂.eng := hc ▸ h₂
    have hflow : u₁.SameFlow u₂ := hm₁.sameFlow (hc ▸ hm₂) h h₁ hinv₂
    obtain ⟨e₁, e₂, hrun₁, hrun₂, hend⟩ :=
      ih (s₁ := { s₁ with eng := u₁ }) (s₂ := { s₂ with eng := u₂ }) hflow (hm₁.inv h₁) (hm₂.inv h₂) ha₁ ha₂ hc
    exact ⟨e₁, e₂, (run_succ_of_next ((step_of_nil ha₁).trans hu₁) n).trans hrun₁,
      (run_succ_of_next ((step_of_nil ha₂).trans hu₂) n).trans hrun₂, hend⟩

/-- Settles O53: the two calls agree on their control flow at the first step, so at every one, and STATUS shows no
more. -/
theorem statusRevealsNoMessageByte : Obligations.StatusRevealsNoMessageByte := by
  intro s₁ s₂ n h₁ h₂ ha₁ ha₂ hp₁ hp₂ hf₁ hf₂ hc hlen hwritten
  have hinv₂ : Engine.Inv s₁.config s₂.eng := hc ▸ h₂
  have hflow : s₁.eng.SameFlow s₂.eng := .of_chklen h₁ hinv₂ hp₁ hp₂ (hf₁.trans hf₂.symm) hlen hwritten
  obtain ⟨e₁, e₂, hrun₁, hrun₂, hend⟩ := hflow.run (n := n) h₁ h₂ ha₁ ha₂ hc
  have hend₂ : Engine.Inv s₁.config e₂ := hc ▸ State.Inv.run h₂ hrun₂
  exact ⟨_, _, hrun₁, hrun₂, hend.status_eq (State.Inv.run h₁ hrun₁) hend₂⟩

end Sys2Proof.Machine
